-- ==== Sys2Proof/Word.lean ====
section
/-! DEFINITION. The word types of the block: what the spec treats as bits (00_scope.md R6, R7; 10_state.md R23). -/

namespace Sys2Proof

/-- One byte: a character of a mnemonic (10_state.md R36), or a byte of a serialised Word (20_memory.md R51). -/
abbrev Byte := BitVec 8

/-- A Word: 32 bits, bit 31 the most significant (10_state.md R23). -/
abbrev Word := BitVec 32

/-- A register field of a Word, 5 bits (10_state.md R26). -/
abbrev RegNum := BitVec 5

/-- An immediate or offset field of a Word, 16 bits, unsigned (30_encoding.md R86). -/
abbrev Imm16 := BitVec 16

end Sys2Proof
end

