-- ==== Sys2Proof/Config.lean ====
section
/-! DEFINITION. The parameters of the block that the spec's decisions set (00_scope.md R5; 92_eei_decisions.md D7, D8,
D9, D12, D17, and the port widths D2, D3, D4). The values this hardware takes, R5's defaults, are `hardware` in
Sys2Proof/Machine/Table.lean.

The widths that R5 takes from its source (WORD_W, OPCODE_W, REG_W, FUNCT_W, IMM_W, N_SLOTS) are no decisions and no fields:
each is fixed once, in the type that has it. -/

namespace Sys2Proof

/-- The 16 mnemonics of 00_scope.md R2, as names of descriptors. -/
inductive InstrName
  | add | and | or | sub | slt
  | div | mult
  | mfhi | mflo
  | addi | slti
  | lui
  | beq | bne
  | lw | sw
  deriving DecidableEq, Repr

/-- The names in the order of 00_scope.md R2; an index of this list is a descriptor number (30_encoding.md R80). -/
def InstrName.all : List InstrName :=
  [.add, .and, .or, .sub, .slt, .div, .mult, .mfhi, .mflo, .addi, .slti, .lui, .beq, .bne, .lw, .sw]

/-- Whether forced-zero filler fields belong to the decode pattern sets (30_encoding.md R88, R98). -/
inductive FillerPolicy
  | strict
  | lenient
  deriving DecidableEq, Repr

/-- The range an immediate must lie in (30_encoding.md R87). -/
inductive ImmPolicy
  | u16
  | s16pos
  deriving DecidableEq, Repr

/-- The byte order in which a harness may serialise a Word (20_memory.md R51). The spec leaves it OPEN, so every
definition that needs it takes it as an argument. -/
inductive ByteOrder
  | big
  | little
  deriving DecidableEq, Repr

/-- The parameters that 00_scope.md R5 marks as decisions: the four function constants the source never prints, the
immediate policy of each mnemonic, the filler policy, the order in which the decoder evaluates descriptors, and the widths
of the operand value, the mnemonic and the Outcome at the ports. -/
structure Config where
  functAnd : BitVec 6
  functOr : BitVec 6
  functSub : BitVec 6
  functSlt : BitVec 6
  immPolicy : InstrName → ImmPolicy
  fillerPolicy : FillerPolicy
  tableOrder : List InstrName
  /-- `OPVAL_W` (D2). -/
  opvalW : Nat
  /-- `MNEM_BYTES` (D3). -/
  mnemBytes : Nat
  /-- `OUTCOME_W` (D4). -/
  outcomeW : Nat

/-- An operand value at a port: `OPVAL_W` bits, unsigned (10_state.md R37). -/
abbrev Config.OpVal (c : Config) := BitVec c.opvalW

/-- A mnemonic at a port: `MNEM_BYTES` bytes (10_state.md R36). -/
abbrev Config.MnemPort (c : Config) := BitVec (8 * c.mnemBytes)

/-- An Outcome's code at a port: `OUTCOME_W` bits (10_state.md R25). -/
abbrev Config.OutcomeCode (c : Config) := BitVec c.outcomeW

end Sys2Proof
end

