-- ==== Sys2Proof/Syntax.lean ====
section
/-! DEFINITION. The block's data: operands, Outcomes, results (00_scope.md R7), bit fields, literals and patterns
(40_codec_primitives.md R120 to R124), descriptors (10_state.md R21), and the validated instructions (30_encoding.md). -/

namespace Sys2Proof

/-! ## Operands, Outcomes and results -/

/-- A mnemonic: a finite string of bytes (00_scope.md R7). -/
abbrev Mnemonic := List Byte

/-- An operand slot (10_state.md R24). As an input of the encoder the number may be any natural number. -/
inductive Operand
  | register (n : Nat)
  | immediate (v : Nat)
  | empty
  deriving DecidableEq, Repr

/-- A canonical operand position, 1 to 4 (00_scope.md R12; 30_encoding.md R84). -/
inductive Position
  | p1 | p2 | p3 | p4
  deriving DecidableEq, Repr

/-- Exactly four operands, numbered by canonical position (00_scope.md R7). -/
structure OperandList where
  op1 : Operand
  op2 : Operand
  op3 : Operand
  op4 : Operand
  deriving DecidableEq, Repr

/-- The terminal status of one call (10_state.md R25), in the spec's order. -/
inductive Outcome
  | noError
  | wrongCommand
  | missingReg
  | invalidParam
  | invalidReg
  | invalidImmed
  | completeEncode
  | completeDecode
  deriving DecidableEq, Repr

/-- Result of an encode call: the Word, or a failure Outcome and no Word (00_scope.md R7). -/
inductive EncResult
  | ok (word : Word)
  | fail (o : Outcome)
  deriving DecidableEq, Repr

/-- Result of a decode call: mnemonic and operands, or a failure Outcome and neither (00_scope.md R7). -/
inductive DecResult
  | ok (m : Mnemonic) (ops : OperandList)
  | fail (o : Outcome)
  deriving DecidableEq, Repr

/-! ## Bit fields -/

/-- The domain of the primitives: `highBit` at most 31 and `1 ≤ width ≤ highBit + 1` (40_codec_primitives.md R120). -/
def fieldInDomain (highBit width : Nat) : Bool :=
  decide (highBit ≤ 31) && decide (1 ≤ width) && decide (width ≤ highBit + 1)

/-- A bit range of a Word (40_codec_primitives.md R120). The domain is part of the value, so a call of a primitive
outside its domain cannot be written (93_implementation_defined.md U3). -/
structure BitField where
  highBit : Nat
  width : Nat
  ok : fieldInDomain highBit width = true
  deriving DecidableEq, Repr

/-- The lowest bit of the field, R120's `highBit - width + 1` written so that no intermediate is negative. -/
def BitField.lowBit (f : BitField) : Nat := f.highBit + 1 - f.width

/-- A character of a literal bit string (40_codec_primitives.md R122; two constructors, 93 U4). -/
inductive Bit
  | b0 | b1
  deriving DecidableEq, Repr

/-- A character of a pattern (40_codec_primitives.md R124; three constructors, 93 U4). -/
inductive PatBit
  | b0 | b1 | x
  deriving DecidableEq, Repr

/-- A literal bit string placed with its leftmost character at `highBit`; its length is the width (R122). -/
structure FieldLiteral where
  highBit : Nat
  bits : List Bit
  ok : fieldInDomain highBit bits.length = true
  deriving DecidableEq, Repr

/-- A pattern placed with its leftmost character at `highBit`; its length is the width (R124). -/
structure FieldPattern where
  highBit : Nat
  bits : List PatBit
  ok : fieldInDomain highBit bits.length = true
  deriving DecidableEq, Repr

/-! ## Descriptors -/

/-- The register fields Rs, Rt, Rd (30_encoding.md R71). -/
inductive RegField
  | rs | rt | rd
  deriving DecidableEq, Repr

/-- What an operand position maps to: a register field or the immediate field (30_encoding.md R84). -/
inductive OperandField
  | reg (r : RegField)
  | imm
  deriving DecidableEq, Repr

/-- The role of a field (00_scope.md R12). -/
inductive Role
  | opcode
  | funct
  | register (r : RegField)
  | immediate
  | filler
  deriving DecidableEq, Repr

/-- A Field of a descriptor: a bit range and its role (00_scope.md R12). -/
structure FieldDecl where
  field : BitField
  role : Role
  deriving DecidableEq, Repr

/-- The seven formats (30_encoding.md section 2). -/
inductive Format
  | r3 | r2 | r1 | i | lui | br | ls
  deriving DecidableEq, Repr

/-- The six format families (30_encoding.md R79). Nothing the block computes depends on one. -/
inductive Family
  | rType | rTypeNoRd | rTypeSingleRegister | iType | branch | loadStore
  deriving DecidableEq, Repr

/-- The type a declared position expects (30_encoding.md R85). -/
inductive SlotType
  | register
  | immediate
  deriving DecidableEq, Repr

/-- An instruction descriptor with the components of 10_state.md R21; `name` is its number in R80's table, `opcode` and
`funct` are its constants of R80 and R81 (`D.opcode` and `D.funct` of 41_encoder_decoder.md R145). -/
structure Descriptor where
  name : InstrName
  mnemonic : Mnemonic
  format : Format
  family : Family
  opcode : BitVec 6
  funct : Option (BitVec 6)
  fields : List FieldDecl
  patterns : List FieldPattern
  operandMap : List (Position × OperandField)
  slotTypes : List (Position × SlotType)
  immPolicy : ImmPolicy
  deriving DecidableEq, Repr

/-! ## Instructions -/

/-- A validated instruction, one constructor per row of the opcode table, its operands in canonical order
(30_encoding.md R84) and at the width of the field that holds them. -/
inductive Instr
  /-- R180 -/
  | add (rd rs rt : RegNum)
  /-- R181 -/
  | and (rd rs rt : RegNum)
  /-- R182 -/
  | or (rd rs rt : RegNum)
  /-- R183 -/
  | sub (rd rs rt : RegNum)
  /-- R184 -/
  | slt (rd rs rt : RegNum)
  /-- R190 -/
  | div (rs rt : RegNum)
  /-- R191 -/
  | mult (rs rt : RegNum)
  /-- R195 -/
  | mfhi (rd : RegNum)
  /-- R196 -/
  | mflo (rd : RegNum)
  /-- R200 -/
  | addi (rt rs : RegNum) (imm : Imm16)
  /-- R201 -/
  | slti (rt rs : RegNum) (imm : Imm16)
  /-- R202 -/
  | lui (rt : RegNum) (imm : Imm16)
  /-- R210 -/
  | beq (rs rt : RegNum) (off : Imm16)
  /-- R211 -/
  | bne (rs rt : RegNum) (off : Imm16)
  /-- R215 -/
  | lw (rt : RegNum) (off : Imm16) (rs : RegNum)
  /-- R216 -/
  | sw (rt : RegNum) (off : Imm16) (rs : RegNum)
  deriving DecidableEq, Repr

/-- The name of an instruction's descriptor. -/
def Instr.name : Instr → InstrName
  | .add _ _ _ => .add
  | .and _ _ _ => .and
  | .or _ _ _ => .or
  | .sub _ _ _ => .sub
  | .slt _ _ _ => .slt
  | .div _ _ => .div
  | .mult _ _ => .mult
  | .mfhi _ => .mfhi
  | .mflo _ => .mflo
  | .addi _ _ _ => .addi
  | .slti _ _ _ => .slti
  | .lui _ _ => .lui
  | .beq _ _ _ => .beq
  | .bne _ _ _ => .bne
  | .lw _ _ _ => .lw
  | .sw _ _ _ => .sw

end Sys2Proof
end

