-- ==== Sys2Proof/Machine/BitField.lean ====
section
/-! DEFINITION. The BitField Codec: the four primitives on a Word, their field mask, and the (care, want) reading of a
pattern (40_codec_primitives.md R120 to R124). -/

namespace Sys2Proof

/-- The Word with ones exactly in the field (R120). -/
def fieldMask (f : BitField) : Word := BitVec.ofNat 32 ((2 ^ f.width - 1) * 2 ^ f.lowBit)

/-- R121. Bits of `value` above the field's width are dropped by the final mask (92_eei_decisions.md D14). -/
def setField (word : Word) (f : BitField) (value : Nat) : Word :=
  (word &&& ~~~fieldMask f) ||| (BitVec.ofNat 32 (value * 2 ^ f.lowBit) &&& fieldMask f)

/-- The number a bit character stands for. -/
def Bit.toNat : Bit → Nat
  | .b0 => 0
  | .b1 => 1

/-- The value of a literal, leftmost character most significant (R122's sum). -/
def bitsValue : List Bit → Nat
  | [] => 0
  | b :: bs => b.toNat * 2 ^ bs.length + bitsValue bs

/-- The field a literal occupies. -/
abbrev FieldLiteral.field (l : FieldLiteral) : BitField := ⟨l.highBit, l.bits.length, l.ok⟩

/-- The field a pattern covers. -/
abbrev FieldPattern.field (p : FieldPattern) : BitField := ⟨p.highBit, p.bits.length, p.ok⟩

/-- R122. -/
def setFieldLiteral (word : Word) (l : FieldLiteral) : Word := setField word l.field (bitsValue l.bits)

/-- R123. -/
def getField (word : Word) (f : BitField) : Nat := word.toNat / 2 ^ f.lowBit % 2 ^ f.width

/-- Whether one pattern character accepts a bit (R124). -/
def PatBit.accepts : PatBit → Bool → Bool
  | .b0, b => !b
  | .b1, b => b
  | .x, _ => true

/-- The loop of R124: the first character is compared with bit `high`, each next one with the bit below. -/
def matchBits (word : Word) : Nat → List PatBit → Bool
  | _, [] => true
  | high, p :: ps => p.accepts (word.getLsbD high) && matchBits word (high - 1) ps

/-- R124. -/
def matchField (word : Word) (p : FieldPattern) : Bool := matchBits word p.highBit p.bits

/-- The value whose ones are the non-`x` positions of a pattern. -/
def careValue : List PatBit → Nat
  | [] => 0
  | p :: ps => (if p = .x then 0 else 2 ^ ps.length) + careValue ps

/-- The value whose ones are the `1` positions of a pattern. -/
def wantValue : List PatBit → Nat
  | [] => 0
  | p :: ps => (if p = .b1 then 2 ^ ps.length else 0) + wantValue ps

/-- R124's `care`: the field-positioned mask of non-`x` positions. -/
def FieldPattern.care (p : FieldPattern) : Word := BitVec.ofNat 32 (careValue p.bits * 2 ^ p.field.lowBit)

/-- R124's `want`: the field-positioned value of the `1` positions. -/
def FieldPattern.want (p : FieldPattern) : Word := BitVec.ofNat 32 (wantValue p.bits * 2 ^ p.field.lowBit)

/-- A literal character as a pattern character. -/
def Bit.toPat : Bit → PatBit
  | .b0 => .b0
  | .b1 => .b1

/-- The pattern that accepts exactly a literal. -/
def FieldLiteral.toPattern (l : FieldLiteral) : FieldPattern :=
  ⟨l.highBit, l.bits.map Bit.toPat, by rw [List.length_map]; exact l.ok⟩

/-- The character for a bit. -/
def Bit.ofBool (b : Bool) : Bit := if b then .b1 else .b0

/-- A six-bit constant as its string of six characters, most significant first (00_scope.md R6). -/
def bits6 (v : BitVec 6) : List Bit :=
  [.ofBool (v.getLsbD 5), .ofBool (v.getLsbD 4), .ofBool (v.getLsbD 3),
   .ofBool (v.getLsbD 2), .ofBool (v.getLsbD 1), .ofBool (v.getLsbD 0)]

end Sys2Proof
end

