-- ==== Sys2Proof/Machine/Layout.lean ====
section
/-! DEFINITION. The layout of the seven formats: field positions, field lists, operand maps, slot types, fillers, and the
decode pattern sets built from them (30_encoding.md R71 to R79, R84, R85, R87, R88, R98). -/

namespace Sys2Proof

/-! ## Field positions (R71) -/

/-- Bits 31..26. -/
def opcodeField : BitField := ⟨31, 6, rfl⟩
/-- Bits 25..21. -/
def rsField : BitField := ⟨25, 5, rfl⟩
/-- Bits 20..16. -/
def rtField : BitField := ⟨20, 5, rfl⟩
/-- Bits 15..11. -/
def rdField : BitField := ⟨15, 5, rfl⟩
/-- Bits 10..6, filler in R3 and R1. -/
def zeroField10 : BitField := ⟨10, 5, rfl⟩
/-- Bits 15..6, the one 10-bit filler of R2 (R73, 90_conflicts.md C9). -/
def zeroField15 : BitField := ⟨15, 10, rfl⟩
/-- Bits 5..0. -/
def functField : BitField := ⟨5, 6, rfl⟩
/-- Bits 15..0. -/
def immField : BitField := ⟨15, 16, rfl⟩

/-- The bit range of a register field. -/
def RegField.field : RegField → BitField
  | .rs => rsField
  | .rt => rtField
  | .rd => rdField

/-- `D.field(k)` for the field that position `k` maps to (R84). -/
def OperandField.field : OperandField → BitField
  | .reg r => r.field
  | .imm => immField

/-- The type a position mapped to this field expects (R85). -/
def OperandField.slotType : OperandField → SlotType
  | .reg _ => .register
  | .imm => .immediate

/-! ## The formats -/

/-- The ordered field list of a format, top bit first (R72 to R78). -/
def Format.fields : Format → List FieldDecl
  | .r3 => [⟨opcodeField, .opcode⟩, ⟨rsField, .register .rs⟩, ⟨rtField, .register .rt⟩, ⟨rdField, .register .rd⟩,
            ⟨zeroField10, .filler⟩, ⟨functField, .funct⟩]
  | .r2 => [⟨opcodeField, .opcode⟩, ⟨rsField, .register .rs⟩, ⟨rtField, .register .rt⟩, ⟨zeroField15, .filler⟩,
            ⟨functField, .funct⟩]
  | .r1 => [⟨opcodeField, .opcode⟩, ⟨rsField, .filler⟩, ⟨rtField, .filler⟩, ⟨rdField, .register .rd⟩,
            ⟨zeroField10, .filler⟩, ⟨functField, .funct⟩]
  | .i => [⟨opcodeField, .opcode⟩, ⟨rsField, .register .rs⟩, ⟨rtField, .register .rt⟩, ⟨immField, .immediate⟩]
  | .lui => [⟨opcodeField, .opcode⟩, ⟨rsField, .filler⟩, ⟨rtField, .register .rt⟩, ⟨immField, .immediate⟩]
  | .br => [⟨opcodeField, .opcode⟩, ⟨rsField, .register .rs⟩, ⟨rtField, .register .rt⟩, ⟨immField, .immediate⟩]
  | .ls => [⟨opcodeField, .opcode⟩, ⟨rsField, .register .rs⟩, ⟨rtField, .register .rt⟩, ⟨immField, .immediate⟩]

/-- The operand map of a format (R84). Positions not listed are undeclared. -/
def Format.operandMap : Format → List (Position × OperandField)
  | .r3 => [(.p1, .reg .rd), (.p2, .reg .rs), (.p3, .reg .rt)]
  | .r2 => [(.p1, .reg .rs), (.p2, .reg .rt)]
  | .r1 => [(.p1, .reg .rd)]
  | .i => [(.p1, .reg .rt), (.p2, .reg .rs), (.p3, .imm)]
  | .lui => [(.p1, .reg .rt), (.p2, .imm)]
  | .br => [(.p1, .reg .rs), (.p2, .reg .rt), (.p3, .imm)]
  | .ls => [(.p1, .reg .rt), (.p2, .imm), (.p3, .reg .rs)]

/-- The family of a format; `LUI` is a format of family I-type (R79, 90_conflicts.md C4). -/
def Format.family : Format → Family
  | .r3 => .rType
  | .r2 => .rTypeNoRd
  | .r1 => .rTypeSingleRegister
  | .i => .iType
  | .lui => .iType
  | .br => .branch
  | .ls => .loadStore

/-! ## Pattern sets -/

/-- The opcode constant as the literal written at bit 31 (R145). -/
def opcodeLiteral (v : BitVec 6) : FieldLiteral := ⟨31, bits6 v, rfl⟩

/-- The function constant as the literal written at bit 5 (R145). -/
def functLiteral (v : BitVec 6) : FieldLiteral := ⟨5, bits6 v, rfl⟩

/-- The all-zero pattern of a filler field. -/
def zeroPattern (f : BitField) : FieldPattern :=
  ⟨f.highBit, List.replicate f.width .b0, by rw [List.length_replicate]; exact f.ok⟩

/-- The forced-zero filler fields of a field list, in order. -/
def fillerFields (fields : List FieldDecl) : List BitField :=
  (fields.filter (fun d => d.role = .filler)).map FieldDecl.field

/-- The patterns a filler policy asks of the filler fields: all of them (R88) or none (R98). -/
def fillerPatterns (policy : FillerPolicy) (fields : List FieldDecl) : List FieldPattern :=
  match policy with
  | .strict => (fillerFields fields).map zeroPattern
  | .lenient => []

/-- A pattern set: the opcode always, the fillers as the policy says, the function constant where there is one. -/
def patternSet (policy : FillerPolicy) (fields : List FieldDecl) (opcode : BitVec 6) (funct : Option (BitVec 6)) :
    List FieldPattern :=
  (opcodeLiteral opcode).toPattern :: fillerPatterns policy fields ++
    (funct.map (fun v => (functLiteral v).toPattern)).toList

/-- Whether a Word satisfies every pattern of the descriptor (41_encoder_decoder.md R151). -/
def Descriptor.matchesWord (d : Descriptor) (w : Word) : Bool := d.patterns.all (matchField w)

/-- The mask of R89: the bits the pattern set checks. -/
def Descriptor.mask (d : Descriptor) : Word := d.patterns.foldl (fun m p => m ||| p.care) 0

/-- The match value of R89: what those bits must be. -/
def Descriptor.matchValue (d : Descriptor) : Word := d.patterns.foldl (fun m p => m ||| p.want) 0

/-! ## Ranges -/

/-- The largest legal register number (00_scope.md R5, REG_MAX). -/
abbrev regMax : Nat := 31

/-- The largest immediate a policy accepts (R87). -/
def ImmPolicy.max : ImmPolicy → Nat
  | .u16 => 0xFFFF
  | .s16pos => 0x7FFF

/-- The operand at a canonical position. -/
def OperandList.get (ops : OperandList) : Position → Operand
  | .p1 => ops.op1
  | .p2 => ops.op2
  | .p3 => ops.op3
  | .p4 => ops.op4

/-- The operand list with one position replaced. -/
def OperandList.set (ops : OperandList) (k : Position) (o : Operand) : OperandList :=
  match k with
  | .p1 => { ops with op1 := o }
  | .p2 => { ops with op2 := o }
  | .p3 => { ops with op3 := o }
  | .p4 => { ops with op4 := o }

/-- `[EMPTY, EMPTY, EMPTY, EMPTY]`. -/
def OperandList.allEmpty : OperandList := ⟨.empty, .empty, .empty, .empty⟩

/-- The number an operand carries; an `EMPTY` carries none, and no rule asks for its value. -/
def Operand.value : Operand → Nat
  | .register n => n
  | .immediate v => v
  | .empty => 0

end Sys2Proof
end

