-- ==== Sys2Proof/WellFormed.lean ====
section
/-! DEFINITION. The well-formedness checks: of a configuration, of a descriptor and a table (10_state.md R22), of an encode
request (41_encoder_decoder.md section 3), and of an instruction. All are decidable. -/

namespace Sys2Proof

/-! ## Configurations -/

/-- The nine function constants in table order: four of the configuration, five of the source (30_encoding.md R81). -/
def Config.functs (c : Config) : List (BitVec 6) :=
  [0b100000#6, c.functAnd, c.functOr, c.functSub, c.functSlt, 0b011010#6, 0b011000#6, 0b010000#6, 0b010010#6]

/-- A configuration is well formed when its function constants are pairwise different (R81) and its table order lists
every mnemonic exactly once (R95). -/
def Config.wf (c : Config) : Bool :=
  decide c.functs.Nodup && decide c.tableOrder.Nodup && InstrName.all.all (fun n => decide (n ∈ c.tableOrder))

/-- A configuration's ports are wide enough to tell apart what the spec says they carry: an operand value one past the
largest immediate (92_eei_decisions.md D2), the longest mnemonic (D3), eight Outcome codes (D4). Only the ports need this;
`encode` and `decode` have no widths, so `Config.wf` does not ask for it. -/
def Config.portsWf (c : Config) : Bool :=
  decide (0x10000 < 2 ^ c.opvalW) && decide (4 ≤ c.mnemBytes) && decide (3 ≤ c.outcomeW)

/-! ## Descriptors and tables -/

/-- Whether a field list tiles the bits below `top` from the top with no gap, ending at bit 0 (R82). -/
def tilesFrom : Nat → List FieldDecl → Bool
  | top, [] => top == 0
  | top, d :: ds => d.field.highBit + 1 == top && tilesFrom d.field.lowBit ds

/-- Register fields are 5 bits wide, immediate fields 16 (R22 (b), (c)), constants 6. -/
def FieldDecl.widthOk (d : FieldDecl) : Bool :=
  match d.role with
  | .opcode => d.field.width == 6
  | .funct => d.field.width == 6
  | .register _ => d.field.width == 5
  | .immediate => d.field.width == 16
  | .filler => true

/-- Whether the field that a position maps to is one of the descriptor's fields, at the same bits. -/
def OperandField.declaredIn (fields : List FieldDecl) : OperandField → Bool
  | .reg r => fields.any (fun d => d.role == .register r && d.field == r.field)
  | .imm => fields.any (fun d => d.role == .immediate && d.field == immField)

/-- R22 (a), (b), (c) for one descriptor, with: every declared position maps to a declared field, no position twice, and
the slot types are those of the map (R85). -/
def Descriptor.wf (d : Descriptor) : Bool :=
  tilesFrom 32 d.fields && d.fields.all FieldDecl.widthOk
    && d.operandMap.all (fun kf => kf.2.declaredIn d.fields)
    && decide (d.operandMap.map Prod.fst).Nodup
    && d.slotTypes == d.operandMap.map (fun kf => (kf.1, kf.2.slotType))

/-- Two descriptors exclude each other: on some bit both check, they ask for different values (R90). -/
def Descriptor.excludes (a b : Descriptor) : Bool :=
  (a.matchValue ^^^ b.matchValue) &&& (a.mask &&& b.mask) != 0

/-- R22 for a whole table: each descriptor well formed, mnemonics different, pattern sets mutually exclusive. -/
def tableWf (t : List Descriptor) : Bool :=
  t.all Descriptor.wf && decide (t.map Descriptor.mnemonic).Nodup && decide (t.Pairwise (fun a b => a.excludes b = true))

/-! ## Requests and instructions -/

/-- Whether an operand is of the type a slot expects (41_encoder_decoder.md R142). -/
def Operand.hasType : SlotType → Operand → Bool
  | .register, .register _ => true
  | .immediate, .immediate _ => true
  | _, _ => false

/-- An operand of the type a slot expects and within its range (41_encoder_decoder.md section 3, `valid`). -/
def Operand.validFor (policy : ImmPolicy) : SlotType → Operand → Bool
  | .register, .register n => decide (n ≤ regMax)
  | .immediate, .immediate v => decide (v ≤ policy.max)
  | _, _ => false

/-- The operand part of `valid(m, ops)`: every declared position holds a valid operand. -/
def Descriptor.validOperands (d : Descriptor) (ops : OperandList) : Bool :=
  d.slotTypes.all (fun kt => (ops.get kt.1).validFor d.immPolicy kt.2)

/-- Whether a descriptor declares a position. -/
def Descriptor.declares (d : Descriptor) (k : Position) : Bool := d.slotTypes.any (fun kt => kt.1 == k)

/-- `norm_D(ops)`: every position the descriptor does not declare replaced by `EMPTY` (41_encoder_decoder.md section 3). -/
def Descriptor.normalise (d : Descriptor) (ops : OperandList) : OperandList :=
  { op1 := if d.declares .p1 then ops.op1 else .empty
    op2 := if d.declares .p2 then ops.op2 else .empty
    op3 := if d.declares .p3 then ops.op3 else .empty
    op4 := if d.declares .p4 then ops.op4 else .empty }

/-- A validated instruction is well formed under a configuration when its immediate lies in the range its mnemonic's
policy accepts (30_encoding.md R87); its register numbers are 5-bit values and always in range. -/
def Instr.wf (c : Config) : Instr → Bool
  | .addi _ _ imm => decide (imm.toNat ≤ (c.immPolicy .addi).max)
  | .slti _ _ imm => decide (imm.toNat ≤ (c.immPolicy .slti).max)
  | .lui _ imm => decide (imm.toNat ≤ (c.immPolicy .lui).max)
  | .beq _ _ off => decide (off.toNat ≤ (c.immPolicy .beq).max)
  | .bne _ _ off => decide (off.toNat ≤ (c.immPolicy .bne).max)
  | .lw _ off _ => decide (off.toNat ≤ (c.immPolicy .lw).max)
  | .sw _ off _ => decide (off.toNat ≤ (c.immPolicy .sw).max)
  | .add _ _ _ | .and _ _ _ | .or _ _ _ | .sub _ _ _ | .slt _ _ _ => true
  | .div _ _ | .mult _ _ => true
  | .mfhi _ | .mflo _ => true

end Sys2Proof
end

