-- ==== Sys2Proof/Machine/Table.lean ====
section
/-! DEFINITION. The Descriptor Table: the 16 descriptors under a configuration (10_state.md R21; 30_encoding.md R80, R81,
R84 to R89, R95), and the configuration this hardware has (00_scope.md R5). -/

namespace Sys2Proof

/-- A mnemonic written as its ASCII characters (10_state.md R36). -/
def ascii (s : List Char) : Mnemonic := s.map (fun ch => BitVec.ofNat 8 ch.toNat)

/-- The exact upper-case mnemonic of a descriptor (R80). -/
def InstrName.mnemonic : InstrName → Mnemonic
  | .add => ascii ['A', 'D', 'D']
  | .and => ascii ['A', 'N', 'D']
  | .or => ascii ['O', 'R']
  | .sub => ascii ['S', 'U', 'B']
  | .slt => ascii ['S', 'L', 'T']
  | .div => ascii ['D', 'I', 'V']
  | .mult => ascii ['M', 'U', 'L', 'T']
  | .mfhi => ascii ['M', 'F', 'H', 'I']
  | .mflo => ascii ['M', 'F', 'L', 'O']
  | .addi => ascii ['A', 'D', 'D', 'I']
  | .slti => ascii ['S', 'L', 'T', 'I']
  | .lui => ascii ['L', 'U', 'I']
  | .beq => ascii ['B', 'E', 'Q']
  | .bne => ascii ['B', 'N', 'E']
  | .lw => ascii ['L', 'W']
  | .sw => ascii ['S', 'W']

/-- The format of a descriptor (R80). -/
def InstrName.format : InstrName → Format
  | .add => .r3
  | .and => .r3
  | .or => .r3
  | .sub => .r3
  | .slt => .r3
  | .div => .r2
  | .mult => .r2
  | .mfhi => .r1
  | .mflo => .r1
  | .addi => .i
  | .slti => .i
  | .lui => .lui
  | .beq => .br
  | .bne => .br
  | .lw => .ls
  | .sw => .ls

/-- The opcode constant of a descriptor (R80). -/
def InstrName.opcode : InstrName → BitVec 6
  | .add => 0b000000#6
  | .and => 0b000000#6
  | .or => 0b000000#6
  | .sub => 0b000000#6
  | .slt => 0b000000#6
  | .div => 0b000000#6
  | .mult => 0b000000#6
  | .mfhi => 0b000000#6
  | .mflo => 0b000000#6
  | .addi => 0b001000#6
  | .slti => 0b001010#6
  | .lui => 0b001111#6
  | .beq => 0b000100#6
  | .bne => 0b000101#6
  | .lw => 0b100011#6
  | .sw => 0b101011#6

/-- The function constant of a descriptor, where it has one (R81). -/
def InstrName.funct (c : Config) : InstrName → Option (BitVec 6)
  | .add => some 0b100000#6
  | .and => some c.functAnd
  | .or => some c.functOr
  | .sub => some c.functSub
  | .slt => some c.functSlt
  | .div => some 0b011010#6
  | .mult => some 0b011000#6
  | .mfhi => some 0b010000#6
  | .mflo => some 0b010010#6
  | .addi => none
  | .slti => none
  | .lui => none
  | .beq => none
  | .bne => none
  | .lw => none
  | .sw => none

/-- The descriptor of a name under a configuration (10_state.md R21). -/
def descriptor (c : Config) (n : InstrName) : Descriptor :=
  { name := n
    mnemonic := n.mnemonic
    format := n.format
    family := n.format.family
    opcode := n.opcode
    funct := n.funct c
    fields := n.format.fields
    patterns := patternSet c.fillerPolicy n.format.fields n.opcode (n.funct c)
    operandMap := n.format.operandMap
    slotTypes := n.format.operandMap.map (fun kf => (kf.1, kf.2.slotType))
    immPolicy := c.immPolicy n }

/-- The Descriptor Table in the order the decoder evaluates it (R95). -/
def table (c : Config) : List Descriptor := c.tableOrder.map (descriptor c)

/-- The configuration of this hardware: the default of every parameter of 00_scope.md R5. The four function constants
are the spec's, from general knowledge (R81, 92_eei_decisions.md D9); U16 everywhere (D8); strict (D7); R2's order (D12);
port widths 32, 4 bytes and 3 (D2, D3, D4). -/
def hardware : Config :=
  { functAnd := 0b100100#6
    functOr := 0b100101#6
    functSub := 0b100010#6
    functSlt := 0b101010#6
    immPolicy := fun _ => .u16
    fillerPolicy := .strict
    tableOrder := [.add, .and, .or, .sub, .slt, .div, .mult, .mfhi, .mflo, .addi, .slti, .lui, .beq, .bne, .lw, .sw]
    opvalW := 32
    mnemBytes := 4
    outcomeW := 3 }

end Sys2Proof
end

