-- ==== Sys2Proof/Machine/Decoder.lean ====
section
/-! DEFINITION. The dispatcher and the Decoder (41_encoder_decoder.md R150 to R154). -/

namespace Sys2Proof

/-- The first descriptor, in table order, whose whole pattern set the Word satisfies (R151). -/
def dispatch (c : Config) (w : Word) : Option Descriptor := (table c).find? (fun d => d.matchesWord w)

/-- What is extracted for a position: the field's value, tagged with the position's type (R152). -/
def OperandField.extract (w : Word) : OperandField → Operand
  | .reg r => .register (getField w r.field)
  | .imm => .immediate (getField w immField)

/-- The operand list: each declared field at its canonical position, every other position `EMPTY` (R152, R153). -/
def Descriptor.extractOperands (d : Descriptor) (w : Word) : OperandList :=
  d.operandMap.foldl (fun ops kf => ops.set kf.1 (kf.2.extract w)) .allEmpty

/-- The whole decoder (R154). -/
def decode (c : Config) (w : Word) : DecResult :=
  match dispatch c w with
  | none => .fail .wrongCommand
  | some d => .ok d.mnemonic (d.extractOperands w)

/-- The Outcome a result carries (00_scope.md R7; 60_exceptions.md R227). -/
def DecResult.outcome : DecResult → Outcome
  | .ok _ _ => .completeDecode
  | .fail o => o

end Sys2Proof
end

