-- ==== Sys2Proof/Machine/Encoder.lean ====
section
/-! DEFINITION. The Encoder: lookup, the fixed validation order, packing (41_encoder_decoder.md R140 to R149). -/

namespace Sys2Proof

/-- The descriptor whose mnemonic equals `m` byte for byte (R141). -/
def lookup (c : Config) (m : Mnemonic) : Option Descriptor := (table c).find? (fun d => d.mnemonic == m)

/-- Step 2 for one position: the failure if the operand has not the expected type (R142). -/
def slotError : SlotType → Operand → Option Outcome
  | .register, .register _ => none
  | .register, .immediate _ => some .missingReg
  | .register, .empty => some .missingReg
  | .immediate, .immediate _ => none
  | .immediate, .register _ => some .invalidParam
  | .immediate, .empty => some .invalidParam

/-- Step 2: the failure of the first offending declared position (R142). -/
def Descriptor.typeError (d : Descriptor) (ops : OperandList) : Option Outcome :=
  d.slotTypes.findSome? (fun kt => slotError kt.2 (ops.get kt.1))

/-- Step 3: some declared register operand exceeds 31 (R143). -/
def Descriptor.regOutOfRange (d : Descriptor) (ops : OperandList) : Bool :=
  d.slotTypes.any (fun kt => kt.2 == .register && decide ((ops.get kt.1).value > regMax))

/-- Step 4: the declared immediate exceeds the descriptor's range (R144). -/
def Descriptor.immOutOfRange (d : Descriptor) (ops : OperandList) : Bool :=
  d.slotTypes.any (fun kt => kt.2 == .immediate && decide ((ops.get kt.1).value > d.immPolicy.max))

/-- Packing, second loop of R145: each declared register operand into its field. -/
def Descriptor.packRegisters (d : Descriptor) (ops : OperandList) (w : Word) : Word :=
  d.operandMap.foldl
    (fun w kf => match kf.2 with
      | .reg r => setField w r.field (ops.get kf.1).value
      | .imm => w) w

/-- Packing, third part of R145: the immediate operand, where the descriptor has one, into bits 15..0. -/
def Descriptor.packImmediate (d : Descriptor) (ops : OperandList) (w : Word) : Word :=
  d.operandMap.foldl
    (fun w kf => match kf.2 with
      | .reg _ => w
      | .imm => setField w immField (ops.get kf.1).value) w

/-- Packing, last part of R145: the function constant, where the descriptor has one, into bits 5..0. -/
def Descriptor.packFunct (d : Descriptor) (w : Word) : Word :=
  match d.funct with
  | some v => setFieldLiteral w (functLiteral v)
  | none => w

/-- R145: from the all-zero Word, the opcode constant, the registers, the immediate, the function constant. Filler fields
keep their zeros. -/
def Descriptor.pack (d : Descriptor) (ops : OperandList) : Word :=
  d.packFunct (d.packImmediate ops (d.packRegisters ops (setFieldLiteral 0 (opcodeLiteral d.opcode))))

/-- Steps 2 to 4 and packing, once the descriptor is known (R148). -/
def Descriptor.encode (d : Descriptor) (ops : OperandList) : EncResult :=
  match d.typeError ops with
  | some o => .fail o
  | none =>
    if d.regOutOfRange ops then .fail .invalidReg
    else if d.immOutOfRange ops then .fail .invalidImmed
    else .ok (d.pack ops)

/-- The whole encoder (R148). -/
def encode (c : Config) (m : Mnemonic) (ops : OperandList) : EncResult :=
  match lookup c m with
  | none => .fail .wrongCommand
  | some d => d.encode ops

/-- The Outcome a result carries (00_scope.md R7; 60_exceptions.md R226). -/
def EncResult.outcome : EncResult → Outcome
  | .ok _ => .completeEncode
  | .fail o => o

end Sys2Proof
end

