-- ==== Sys2Proof/Machine/State.lean ====
section
/-! DEFINITION. The state: the signals of the encoder port and the decoder port in one transaction (10_state.md R34 to R37).
The block itself holds no mutable state (R20, R33): the inputs are driven by the outside world, and the outputs are
computed anew in every step and read by none (log entry 1). The port types have the widths of a configuration (00_scope.md
R5); the state has those of this hardware. -/

namespace Sys2Proof.Machine

/-- One operand at a port: a 2-bit tag and a value of `OPVAL_W` bits (R37). -/
structure OperandPort (c : Config) where
  tag : BitVec 2
  val : c.OpVal
  deriving DecidableEq, Repr

/-- The encoder port's inputs (R34): `enc_valid`, `enc_mnemonic`, `enc_op1_*` to `enc_op4_*`. -/
structure EncInputs (c : Config) where
  valid : Bool
  mnemonic : c.MnemPort
  op1 : OperandPort c
  op2 : OperandPort c
  op3 : OperandPort c
  op4 : OperandPort c
  deriving DecidableEq, Repr

/-- The encoder port's outputs (R34): `enc_outcome`, `enc_word`. -/
structure EncOutputs (c : Config) where
  outcome : c.OutcomeCode
  word : BitVec 32
  deriving DecidableEq, Repr

/-- The decoder port's inputs (R35): `dec_valid`, `dec_word`. -/
structure DecInputs where
  valid : Bool
  word : BitVec 32
  deriving DecidableEq, Repr

/-- The decoder port's outputs (R35): `dec_outcome`, `dec_mnemonic`, `dec_op1_*` to `dec_op4_*`. -/
structure DecOutputs (c : Config) where
  outcome : c.OutcomeCode
  mnemonic : c.MnemPort
  op1 : OperandPort c
  op2 : OperandPort c
  op3 : OperandPort c
  op4 : OperandPort c
  deriving DecidableEq, Repr

/-- The signals of both ports in one transaction. -/
structure State where
  encIn : EncInputs hardware
  encOut : EncOutputs hardware
  decIn : DecInputs
  decOut : DecOutputs hardware
  deriving DecidableEq, Repr

/-- The reasons a step can stop with a fault: none. Every failure Outcome is an ordinary value of a total function, and
"the model needs no fault bit" (60_exceptions.md R243). Safe: nothing raises a fault. -/
inductive Fault
  deriving DecidableEq, Repr

/-- The reasons a step can be refused. The block itself needs none (60_exceptions.md R243). -/
inductive Refusal
  /-- Raised only by an arm of `exec` whose instruction has no meaning in the model; there is no such arm. Safe: the
  model would stop where the hardware goes on. -/
  | notModelled (mnemonic : String)
  deriving DecidableEq, Repr

/-- `EMPTY` with value 0 (R37, R38). -/
def OperandPort.idle {c : Config} : OperandPort c := ⟨0b00#2, 0⟩

/-- The signals with no request presented: outputs idle as the spec says (R38; 70_reset_and_hazards.md R252); inputs, for
which the spec gives no value, all zero (DESIGN CHOICE, log entry 2). -/
def State.reset : State :=
  { encIn := { valid := false, mnemonic := 0, op1 := .idle, op2 := .idle, op3 := .idle, op4 := .idle }
    encOut := { outcome := 0, word := 0 }
    decIn := { valid := false, word := 0 }
    decOut := { outcome := 0, mnemonic := 0, op1 := .idle, op2 := .idle, op3 := .idle, op4 := .idle } }

end Sys2Proof.Machine
end

