-- ==== Sys2Proof/Machine/Operands.lean ====
section
/-! DEFINITION. The operand forms: the operand list of each format in canonical order (the shared parts of spec files 42 to
47; 30_encoding.md R96), and operands and mnemonics as port values (10_state.md R36, R37). -/

namespace Sys2Proof.Machine

/-! ## The operand list of each format -/

/-- R3: Rd, Rs, Rt (42_rtype_3reg.md). -/
def formR3 (rd rs rt : RegNum) : OperandList :=
  ⟨.register rd.toNat, .register rs.toNat, .register rt.toNat, .empty⟩

/-- R2: Rs, Rt (43_rtype_2reg.md). -/
def formR2 (rs rt : RegNum) : OperandList := ⟨.register rs.toNat, .register rt.toNat, .empty, .empty⟩

/-- R1: Rd (44_rtype_1reg.md). -/
def formR1 (rd : RegNum) : OperandList := ⟨.register rd.toNat, .empty, .empty, .empty⟩

/-- I: Rt, Rs, immediate (45_itype.md). -/
def formI (rt rs : RegNum) (imm : Imm16) : OperandList :=
  ⟨.register rt.toNat, .register rs.toNat, .immediate imm.toNat, .empty⟩

/-- LUI: Rt, immediate (45_itype.md R202). -/
def formLui (rt : RegNum) (imm : Imm16) : OperandList := ⟨.register rt.toNat, .immediate imm.toNat, .empty, .empty⟩

/-- BR: Rs, Rt, offset (46_branch.md). -/
def formBr (rs rt : RegNum) (off : Imm16) : OperandList :=
  ⟨.register rs.toNat, .register rt.toNat, .immediate off.toNat, .empty⟩

/-- LS: Rt, offset, Rs (47_loadstore.md). -/
def formLs (rt : RegNum) (off : Imm16) (rs : RegNum) : OperandList :=
  ⟨.register rt.toNat, .immediate off.toNat, .register rs.toNat, .empty⟩

/-! ## Operands at a port -/

/-- The operand that a tag and a value stand for. Tag `11` is treated as `EMPTY`, and the value of an `EMPTY` is ignored
(R37; 92_eei_decisions.md D15). -/
def OperandPort.operand {c : Config} (p : OperandPort c) : Operand :=
  if p.tag = 0b01#2 then .register p.val.toNat
  else if p.tag = 0b10#2 then .immediate p.val.toNat
  else .empty

/-- The tag and value that drive an operand; an `EMPTY` drives value 0 (R37). -/
def operandPort {c : Config} : Operand → OperandPort c
  | .register n => ⟨0b01#2, BitVec.ofNat c.opvalW n⟩
  | .immediate v => ⟨0b10#2, BitVec.ofNat c.opvalW v⟩
  | .empty => .idle

/-! ## Mnemonics at a port -/

/-- The byte of a mnemonic at an index, `0x00` past its end. -/
def byteAt (m : Mnemonic) (i : Nat) : Byte := m.getD i 0

/-- The number that bytes stand for, first byte most significant. -/
def bytesValue : List Byte → Nat
  | [] => 0
  | b :: bs => b.toNat * 2 ^ (8 * bs.length) + bytesValue bs

/-- A mnemonic as `MNEM_BYTES` ASCII bytes, first character in the top byte, padded with `0x00` (R36). -/
def mnemonicPort {c : Config} (m : Mnemonic) : c.MnemPort :=
  BitVec.ofNat _ (bytesValue ((List.range c.mnemBytes).map (byteAt m)))

/-- The byte of a port value at an index, counted from the top byte. -/
def portByte {c : Config} (p : c.MnemPort) (i : Nat) : Byte := p.extractLsb' (8 * (c.mnemBytes - 1 - i)) 8

/-- A byte string without its trailing `0x00` bytes. -/
def dropTrailingNul : List Byte → List Byte
  | [] => []
  | b :: bs =>
    match dropTrailingNul bs with
    | [] => if b = 0 then [] else [b]
    | r :: rs => b :: r :: rs

/-- The mnemonic that a port value stands for: its bytes, first character first, without the padding (R36). -/
def portMnemonic {c : Config} (p : c.MnemPort) : Mnemonic :=
  dropTrailingNul ((List.range c.mnemBytes).map (portByte p))

end Sys2Proof.Machine
end

