-- ==== Sys2Proof/Decode.lean ====
section
/-! DEFINITION. Words to validated instructions and back. `decodeInstr` is total on every Word and rejects by the codec's own
verdict, WRONG_COMMAND (41_encoder_decoder.md R151; 30_encoding.md R92); `encodeInstr` is the Encoder applied to an
instruction's request. -/

namespace Sys2Proof

/-- Bits 25..21. -/
def wordRs (w : Word) : RegNum := BitVec.ofNat 5 (getField w rsField)
/-- Bits 20..16. -/
def wordRt (w : Word) : RegNum := BitVec.ofNat 5 (getField w rtField)
/-- Bits 15..11. -/
def wordRd (w : Word) : RegNum := BitVec.ofNat 5 (getField w rdField)
/-- Bits 15..0. -/
def wordImm (w : Word) : Imm16 := BitVec.ofNat 16 (getField w immField)

/-- The instruction of a name whose operand fields are those of a Word (30_encoding.md R72 to R78). -/
def InstrName.ofWord (w : Word) : InstrName → Instr
  | .add => .add (wordRd w) (wordRs w) (wordRt w)
  | .and => .and (wordRd w) (wordRs w) (wordRt w)
  | .or => .or (wordRd w) (wordRs w) (wordRt w)
  | .sub => .sub (wordRd w) (wordRs w) (wordRt w)
  | .slt => .slt (wordRd w) (wordRs w) (wordRt w)
  | .div => .div (wordRs w) (wordRt w)
  | .mult => .mult (wordRs w) (wordRt w)
  | .mfhi => .mfhi (wordRd w)
  | .mflo => .mflo (wordRd w)
  | .addi => .addi (wordRt w) (wordRs w) (wordImm w)
  | .slti => .slti (wordRt w) (wordRs w) (wordImm w)
  | .lui => .lui (wordRt w) (wordImm w)
  | .beq => .beq (wordRs w) (wordRt w) (wordImm w)
  | .bne => .bne (wordRs w) (wordRt w) (wordImm w)
  | .lw => .lw (wordRt w) (wordImm w) (wordRs w)
  | .sw => .sw (wordRt w) (wordImm w) (wordRs w)

/-- The instruction a Word stands for, or the codec's rejection by name. -/
def decodeInstr (c : Config) (w : Word) : Except Outcome Instr :=
  match dispatch c w with
  | none => .error .wrongCommand
  | some d => .ok (d.name.ofWord w)

/-- The operand list of an instruction, in canonical order (30_encoding.md R84, R96). -/
def Instr.operands : Instr → OperandList
  | .add rd rs rt => Machine.formR3 rd rs rt
  | .and rd rs rt => Machine.formR3 rd rs rt
  | .or rd rs rt => Machine.formR3 rd rs rt
  | .sub rd rs rt => Machine.formR3 rd rs rt
  | .slt rd rs rt => Machine.formR3 rd rs rt
  | .div rs rt => Machine.formR2 rs rt
  | .mult rs rt => Machine.formR2 rs rt
  | .mfhi rd => Machine.formR1 rd
  | .mflo rd => Machine.formR1 rd
  | .addi rt rs imm => Machine.formI rt rs imm
  | .slti rt rs imm => Machine.formI rt rs imm
  | .lui rt imm => Machine.formLui rt imm
  | .beq rs rt off => Machine.formBr rs rt off
  | .bne rs rt off => Machine.formBr rs rt off
  | .lw rt off rs => Machine.formLs rt off rs
  | .sw rt off rs => Machine.formLs rt off rs

/-- The Encoder's result for an instruction: its Word, or INVALID_IMMED where the configuration's policy refuses its
immediate (41_encoder_decoder.md R148). -/
def encodeInstr (c : Config) (i : Instr) : EncResult := encode c i.name.mnemonic i.operands

/-- The host's reading of a table row: every row is one 32-bit Word (30_encoding.md R70). -/
def decodeTableWord (nbits w : Nat) : Option Instr :=
  match decodeInstr hardware (BitVec.ofNat 32 (w % 2 ^ nbits)) with
  | .ok i => some i
  | .error _ => none

/-! ## Words as bytes, for a harness that must serialise them (20_memory.md R51) -/

/-- The four bytes of a Word in a byte order the caller chooses. -/
def wordBytes (order : ByteOrder) (w : Word) : List Byte :=
  match order with
  | .big => [w.extractLsb' 24 8, w.extractLsb' 16 8, w.extractLsb' 8 8, w.extractLsb' 0 8]
  | .little => [w.extractLsb' 0 8, w.extractLsb' 8 8, w.extractLsb' 16 8, w.extractLsb' 24 8]

/-- The Word that four bytes stand for in a byte order; no other length is a Word (R70). -/
def bytesWord (order : ByteOrder) : List Byte → Option Word
  | [a, b, c, d] =>
    match order with
    | .big => some (a ++ b ++ c ++ d)
    | .little => some (d ++ c ++ b ++ a)
  | _ => none

end Sys2Proof
end

