-- ==== Sys2Proof/Machine/Flags.lean ====
section
/-! DEFINITION. The block has no flags or condition codes; its only status is the Outcome of a call (10_state.md R29). This
file holds the Outcome's code at a port (R25). -/

namespace Sys2Proof

/-- The number of an Outcome, in the spec's order (10_state.md R25; 92_eei_decisions.md D4). -/
def Outcome.number : Outcome → Nat
  | .noError => 0
  | .wrongCommand => 1
  | .missingReg => 2
  | .invalidParam => 3
  | .invalidReg => 4
  | .invalidImmed => 5
  | .completeEncode => 6
  | .completeDecode => 7

/-- The code of an Outcome at a port, `OUTCOME_W` bits wide (R25). -/
def Outcome.code {c : Config} (o : Outcome) : c.OutcomeCode := BitVec.ofNat c.outcomeW o.number

end Sys2Proof
end

