-- ==== Sys2Proof/Machine/Ops.lean ====
section
/-! DEFINITION. The shared operations on the ports: reading a request, driving a result, and what takes the place of an
exception in this block, a failure Outcome (10_state.md R34, R35; 60_exceptions.md R220, R231, R232). -/

namespace Sys2Proof.Machine

/-! ## Setting the signals -/

/-- The outside world drives the encoder port's inputs. -/
def State.withEncIn (s : State) (i : EncInputs hardware) : State := { s with encIn := i }

/-- The outside world drives the decoder port's inputs. -/
def State.withDecIn (s : State) (i : DecInputs) : State := { s with decIn := i }

/-- The block drives the encoder port's outputs. -/
def State.withEncOut (s : State) (o : EncOutputs hardware) : State := { s with encOut := o }

/-- The block drives the decoder port's outputs. -/
def State.withDecOut (s : State) (o : DecOutputs hardware) : State := { s with decOut := o }

/-! ## Reading a request -/

/-- The operand list presented at the encoder port (R34, R37). -/
def EncInputs.operands {c : Config} (i : EncInputs c) : OperandList :=
  ⟨i.op1.operand, i.op2.operand, i.op3.operand, i.op4.operand⟩

/-! ## Failing: the block's only form of exception

A failure saves no state, changes no mode, masks nothing and transfers control nowhere (R231): the outputs carry the
Outcome's code and nothing else (R230). There is no return from it (R232): the next request is served like any other. -/

/-- The encoder outputs that carry an Outcome and no Word (R34). -/
def EncOutputs.only {c : Config} (o : Outcome) : EncOutputs c := { outcome := o.code, word := 0 }

/-- The decoder outputs that carry an Outcome, no mnemonic and no operands (R35). -/
def DecOutputs.only {c : Config} (o : Outcome) : DecOutputs c :=
  { outcome := o.code, mnemonic := 0, op1 := .idle, op2 := .idle, op3 := .idle, op4 := .idle }

/-- Ends a decode call with a failure Outcome. -/
def failDecode (o : Outcome) (s : State) : State := s.withDecOut (.only o)

/-- The decoder port with no request presented: `NO_ERROR` (R35; 60_exceptions.md R228). -/
def idleDecode (s : State) : State := s.withDecOut (.only .noError)

/-! ## Driving a result -/

/-- The encoder outputs that carry a result (R34). -/
def encOutputs {c : Config} : EncResult → EncOutputs c
  | .ok w => { outcome := Outcome.completeEncode.code, word := w }
  | .fail o => .only o

/-- The decoder outputs that carry a successful result (R35, R36, R37). -/
def DecOutputs.complete {c : Config} (m : Mnemonic) (ops : OperandList) : DecOutputs c :=
  { outcome := Outcome.completeDecode.code
    mnemonic := mnemonicPort m
    op1 := operandPort ops.op1
    op2 := operandPort ops.op2
    op3 := operandPort ops.op3
    op4 := operandPort ops.op4 }

/-- The decoder outputs that carry a result. -/
def decOutputs {c : Config} : DecResult → DecOutputs c
  | .ok m ops => .complete m ops
  | .fail o => .only o

/-- What the decoder port does with the word of an instruction: it delivers the mnemonic and the operand list with
`COMPLETE_DECODE` (41_encoder_decoder.md R152, R153). -/
def deliver (n : InstrName) (ops : OperandList) (s : State) : State := s.withDecOut (.complete n.mnemonic ops)

/-! ## The encoder port -/

/-- The encoder outputs as a function of the encoder inputs (R34). -/
def EncInputs.response {c : Config} (i : EncInputs c) : EncOutputs c :=
  if i.valid then encOutputs (encode c (portMnemonic i.mnemonic) i.operands) else .only .noError

/-- One transaction of the encoder port. -/
def serveEncoder (s : State) : State := s.withEncOut s.encIn.response

/-! ## The decoder port -/

/-- The decoder outputs as a function of the decoder inputs, by the abstract decoder (R35). `step` reaches the same outputs
through the decoded instruction's meaning. -/
def DecInputs.response {c : Config} (i : DecInputs) : DecOutputs c :=
  if i.valid then decOutputs (decode c i.word) else .only .noError

end Sys2Proof.Machine
end

