-- ==== Sys2Proof/Machine/Branch.lean ====
section
/-! DEFINITION. The meanings of the branch instructions: BEQ, BNE (46_branch.md). The block executes nothing (00_scope.md R4):
presented at the decoder port, the instruction's word makes the port deliver its mnemonic and its operand list. The other
half of each rule, the encoding of a request, is the Encoder's, which the encoder port runs in the same step. -/

namespace Sys2Proof.Machine

/-- R210, decode. -/
def execBeq (rs rt : RegNum) (off : Imm16) (s : State) : Host.Outcome State Fault Refusal :=
  .next (deliver .beq (formBr rs rt off) s)

/-- R211, decode. -/
def execBne (rs rt : RegNum) (off : Imm16) (s : State) : Host.Outcome State Fault Refusal :=
  .next (deliver .bne (formBr rs rt off) s)

end Sys2Proof.Machine
end

