-- ==== Sys2Proof/Machine/IType.lean ====
section
/-! DEFINITION. The meanings of the I-type instructions: ADDI, SLTI, LUI (45_itype.md). The block executes nothing (00_scope.md R4):
presented at the decoder port, the instruction's word makes the port deliver its mnemonic and its operand list. The other
half of each rule, the encoding of a request, is the Encoder's, which the encoder port runs in the same step. -/

namespace Sys2Proof.Machine

/-- R200, decode. -/
def execAddi (rt rs : RegNum) (imm : Imm16) (s : State) : Host.Outcome State Fault Refusal :=
  .next (deliver .addi (formI rt rs imm) s)

/-- R201, decode. -/
def execSlti (rt rs : RegNum) (imm : Imm16) (s : State) : Host.Outcome State Fault Refusal :=
  .next (deliver .slti (formI rt rs imm) s)

/-- R202, decode. -/
def execLui (rt : RegNum) (imm : Imm16) (s : State) : Host.Outcome State Fault Refusal :=
  .next (deliver .lui (formLui rt imm) s)

end Sys2Proof.Machine
end

