-- ==== Sys2Proof/Machine/LoadStore.lean ====
section
/-! DEFINITION. The meanings of the load and store instructions: LW, SW (47_loadstore.md). The block executes nothing (00_scope.md R4):
presented at the decoder port, the instruction's word makes the port deliver its mnemonic and its operand list. The other
half of each rule, the encoding of a request, is the Encoder's, which the encoder port runs in the same step. -/

namespace Sys2Proof.Machine

/-- R215, decode. -/
def execLw (rt : RegNum) (off : Imm16) (rs : RegNum) (s : State) : Host.Outcome State Fault Refusal :=
  .next (deliver .lw (formLs rt off rs) s)

/-- R216, decode. -/
def execSw (rt : RegNum) (off : Imm16) (rs : RegNum) (s : State) : Host.Outcome State Fault Refusal :=
  .next (deliver .sw (formLs rt off rs) s)

end Sys2Proof.Machine
end

