-- ==== Sys2Proof/Machine/RType1.lean ====
section
/-! DEFINITION. The meanings of the R-type single-register instructions: MFHI, MFLO (44_rtype_1reg.md). The block executes nothing (00_scope.md R4):
presented at the decoder port, the instruction's word makes the port deliver its mnemonic and its operand list. The other
half of each rule, the encoding of a request, is the Encoder's, which the encoder port runs in the same step. -/

namespace Sys2Proof.Machine

/-- R195, decode. -/
def execMfhi (rd : RegNum) (s : State) : Host.Outcome State Fault Refusal :=
  .next (deliver .mfhi (formR1 rd) s)

/-- R196, decode. -/
def execMflo (rd : RegNum) (s : State) : Host.Outcome State Fault Refusal :=
  .next (deliver .mflo (formR1 rd) s)

end Sys2Proof.Machine
end

