-- ==== Sys2Proof/Machine/RType2.lean ====
section
/-! DEFINITION. The meanings of the R-type two-register instructions: DIV, MULT (43_rtype_2reg.md). The block executes nothing (00_scope.md R4):
presented at the decoder port, the instruction's word makes the port deliver its mnemonic and its operand list. The other
half of each rule, the encoding of a request, is the Encoder's, which the encoder port runs in the same step. -/

namespace Sys2Proof.Machine

/-- R190, decode. -/
def execDiv (rs rt : RegNum) (s : State) : Host.Outcome State Fault Refusal :=
  .next (deliver .div (formR2 rs rt) s)

/-- R191, decode. -/
def execMult (rs rt : RegNum) (s : State) : Host.Outcome State Fault Refusal :=
  .next (deliver .mult (formR2 rs rt) s)

end Sys2Proof.Machine
end

