-- ==== Sys2Proof/Machine/RType3.lean ====
section
/-! DEFINITION. The meanings of the R-type three-register instructions: ADD, AND, OR, SUB, SLT (42_rtype_3reg.md). The block executes nothing (00_scope.md R4):
presented at the decoder port, the instruction's word makes the port deliver its mnemonic and its operand list. The other
half of each rule, the encoding of a request, is the Encoder's, which the encoder port runs in the same step. -/

namespace Sys2Proof.Machine

/-- R180, decode. -/
def execAdd (rd rs rt : RegNum) (s : State) : Host.Outcome State Fault Refusal :=
  .next (deliver .add (formR3 rd rs rt) s)

/-- R181, decode. -/
def execAnd (rd rs rt : RegNum) (s : State) : Host.Outcome State Fault Refusal :=
  .next (deliver .and (formR3 rd rs rt) s)

/-- R182, decode. -/
def execOr (rd rs rt : RegNum) (s : State) : Host.Outcome State Fault Refusal :=
  .next (deliver .or (formR3 rd rs rt) s)

/-- R183, decode. -/
def execSub (rd rs rt : RegNum) (s : State) : Host.Outcome State Fault Refusal :=
  .next (deliver .sub (formR3 rd rs rt) s)

/-- R184, decode. -/
def execSlt (rd rs rt : RegNum) (s : State) : Host.Outcome State Fault Refusal :=
  .next (deliver .slt (formR3 rd rs rt) s)

end Sys2Proof.Machine
end

