-- ==== Sys2Proof/Machine/Dispatch.lean ====
section
/-! DEFINITION. One arm per instruction, each a direct call of its meaning. -/

namespace Sys2Proof.Machine

def exec (i : Instr) (s : State) : Host.Outcome State Fault Refusal :=
  match i with
  | .add rd rs rt => Sys2Proof.Machine.execAdd rd rs rt s
  | .and rd rs rt => Sys2Proof.Machine.execAnd rd rs rt s
  | .or rd rs rt => Sys2Proof.Machine.execOr rd rs rt s
  | .sub rd rs rt => Sys2Proof.Machine.execSub rd rs rt s
  | .slt rd rs rt => Sys2Proof.Machine.execSlt rd rs rt s
  | .div rs rt => Sys2Proof.Machine.execDiv rs rt s
  | .mult rs rt => Sys2Proof.Machine.execMult rs rt s
  | .mfhi rd => Sys2Proof.Machine.execMfhi rd s
  | .mflo rd => Sys2Proof.Machine.execMflo rd s
  | .addi rt rs imm => Sys2Proof.Machine.execAddi rt rs imm s
  | .slti rt rs imm => Sys2Proof.Machine.execSlti rt rs imm s
  | .lui rt imm => Sys2Proof.Machine.execLui rt imm s
  | .beq rs rt off => Sys2Proof.Machine.execBeq rs rt off s
  | .bne rs rt off => Sys2Proof.Machine.execBne rs rt off s
  | .lw rt off rs => Sys2Proof.Machine.execLw rt off rs s
  | .sw rt off rs => Sys2Proof.Machine.execSw rt off rs s

end Sys2Proof.Machine
end

