-- ==== Sys2Proof/Machine/Step.lean ====
section
/-! DEFINITION. One step: one transaction of both ports (10_state.md R34, R35; 00_scope.md R9). The encoder port answers its
request; the decoder port, if a word is presented, runs the meaning of the instruction it decodes to, answers
WRONG_COMMAND where it decodes to none, and is idle where no word is presented. -/

namespace Sys2Proof.Machine

/-- The decoder port's part of a transaction. -/
def serveDecoder (s : State) : Host.Outcome State Fault Refusal :=
  match s.decIn.valid with
  | false => .next (idleDecode s)
  | true =>
    match decodeInstr hardware s.decIn.word with
    | .ok i => exec i s
    | .error o => .next (failDecode o s)

/-- One transaction of both ports. The ports share only the constant table (41_encoder_decoder.md R165), so the order of the
two parts cannot be observed. -/
def step (s : State) : Host.Outcome State Fault Refusal := serveDecoder (serveEncoder s)

/-- The state with a word presented at the decoder port: the block fetches nothing, a Word arrives as an input
(20_memory.md R52). This is how a word comes to run (log entry 15). -/
def State.withFetchWord (s : State) (nbits w : Nat) : State :=
  s.withDecIn { valid := true, word := BitVec.ofNat 32 (w % 2 ^ nbits) }

end Sys2Proof.Machine
end

