-- ==== Sys2Proof/Safety.lean ====
section
/-! DEFINITION. What counts as a safe run: every step answers a next state, and the outputs stay within what the spec says a
port may drive (10_state.md R34, R35, R37). -/

namespace Sys2Proof.Machine

/-- A step from this state answers a next state. -/
def Safe (s : State) : Prop := ∃ t, step s = .next t

/-- What the decoder may drive at an operand output: value 0 with tag `EMPTY`, 0..31 with `REGISTER`, 0..0xFFFF with
`IMMEDIATE`; never tag `11` (R37). -/
def OperandPort.legalOutput {c : Config} (p : OperandPort c) : Prop :=
  (p.tag = 0b00#2 ∧ p.val = 0) ∨ (p.tag = 0b01#2 ∧ p.val.toNat ≤ 31) ∨ (p.tag = 0b10#2 ∧ p.val.toNat ≤ 0xFFFF)

/-- What the encoder port may drive: a Word only with `COMPLETE_ENCODE`, and then a legal one; 0 otherwise; never
`COMPLETE_DECODE` (R34; 30_encoding.md R91; 41_encoder_decoder.md R140). -/
def EncOutputs.Legal {c : Config} (o : EncOutputs c) : Prop :=
  o.outcome ≠ Outcome.completeDecode.code ∧
    (o.outcome = Outcome.completeEncode.code → (dispatch c o.word).isSome = true) ∧
    (o.outcome ≠ Outcome.completeEncode.code → o.word = 0)

/-- What the decoder port may drive: `NO_ERROR` or `WRONG_COMMAND` with no mnemonic and no operands, or `COMPLETE_DECODE`
with one of the 16 mnemonics, legal operands and an `EMPTY` fourth slot (R35, R37; 41_encoder_decoder.md R150, R153). -/
def DecOutputs.Legal {c : Config} (o : DecOutputs c) : Prop :=
  o = .only .noError ∨ o = .only .wrongCommand ∨
    (o.outcome = Outcome.completeDecode.code ∧
      (∃ n ∈ InstrName.all, o.mnemonic = mnemonicPort n.mnemonic) ∧
      o.op1.legalOutput ∧ o.op2.legalOutput ∧ o.op3.legalOutput ∧ o.op4 = .idle)

/-- Both ports drive what they may. -/
def State.Legal (s : State) : Prop := s.encOut.Legal ∧ s.decOut.Legal

end Sys2Proof.Machine
end

