-- ==== Sys2Proof/Certificates/Slice0/Obligations.lean ====
section
/-! DEFINITION. The statements about the model, in the order of the spec's files. "The spec marks the rule as derived" names a
rule that the spec itself calls an inference from other rules. -/

open Sys2Proof Sys2Proof.Machine

/-! ## The primitives (40_codec_primitives.md) -/

/-- R121: `setField` writes the value's bits into the field, bits above the width dropped, and leaves the others untouched. -/
def Obligations.SetFieldWritesItsFieldAndNothingElse : Prop :=
  ∀ (w : Word) (f : BitField) (v : Nat),
    (∀ i, i < 32 → (setField w f v).getLsbD i =
      if f.lowBit ≤ i ∧ i ≤ f.highBit then v.testBit (i - f.lowBit) else w.getLsbD i) ∧
    setField w f v = setField w f (v % 2 ^ f.width)

/-- R122: `setFieldLiteral` writes character `i` at bit `highBit - i` and leaves the bits outside the field untouched. -/
def Obligations.SetFieldLiteralWritesItsCharacters : Prop :=
  ∀ (w : Word) (l : FieldLiteral),
    (∀ (i : Nat) (h : i < l.bits.length), (setFieldLiteral w l).getLsbD (l.highBit - i) = (l.bits[i] == Bit.b1)) ∧
    (∀ i, i < 32 → (l.highBit < i ∨ i < l.field.lowBit) → (setFieldLiteral w l).getLsbD i = w.getLsbD i)

/-- R123: `getField` is the unsigned value of the field's bits, below `2 ^ width`. -/
def Obligations.GetFieldIsTheUnsignedFieldValue : Prop :=
  ∀ (w : Word) (f : BitField),
    getField w f < 2 ^ f.width ∧
    ∀ i, (getField w f).testBit i = (decide (i < f.width) && w.getLsbD (f.lowBit + i))

/-- R124: `matchField` holds iff every non-`x` character equals its bit; the (care, want) form; an all-`x` pattern accepts
every word; a literal pattern accepts iff the field has the literal's value. -/
def Obligations.MatchFieldComparesEveryNonWildcardBit : Prop :=
  ∀ (w : Word),
    (∀ p : FieldPattern, (matchField w p = true ↔ ∀ (i : Nat) (h : i < p.bits.length),
        (p.bits[i] = PatBit.b0 → w.getLsbD (p.highBit - i) = false) ∧
        (p.bits[i] = PatBit.b1 → w.getLsbD (p.highBit - i) = true)) ∧
      (matchField w p = true ↔ w &&& p.care = p.want) ∧
      ((∀ b ∈ p.bits, b = PatBit.x) → matchField w p = true)) ∧
    (∀ l : FieldLiteral, matchField w l.toPattern = true ↔ getField w l.field = bitsValue l.bits)

/-- R125 (the spec marks the rule as derived): reading a field just written gives the value, modulo `2 ^ width`. -/
def Obligations.ReadAfterWriteGivesTheValue : Prop :=
  ∀ (w : Word) (f : BitField) (v : Nat),
    getField (setField w f v) f = v % 2 ^ f.width ∧ (v < 2 ^ f.width → getField (setField w f v) f = v)

/-- R126 (the spec marks the rule as derived): writing one field leaves a disjoint field's value, and writes to disjoint
fields commute. -/
def Obligations.WritesToDisjointFieldsDoNotInterfere : Prop :=
  ∀ (w : Word) (f g : BitField) (u v : Nat), (f.highBit < g.lowBit ∨ g.highBit < f.lowBit) →
    getField (setField w f u) g = getField w g ∧ setField (setField w f u) g v = setField (setField w g v) f u

/-- R127 (the spec marks the rule as derived): writing back what was read changes nothing, and a word is determined by the
values of the fields of any one format. -/
def Obligations.FieldsOfAFormatDetermineTheWord : Prop :=
  (∀ (w : Word) (f : BitField), setField w f (getField w f) = w) ∧
  ∀ (fmt : Format) (w w' : Word), (∀ d ∈ fmt.fields, getField w d.field = getField w' d.field) → w = w'

/-- R128 (the spec marks the rule as derived): a written literal is matched by itself and by no other literal of its length. -/
def Obligations.LiteralWrittenIsMatchedByItselfOnly : Prop :=
  ∀ (w : Word) (l t : FieldLiteral), matchField (setFieldLiteral w l) l.toPattern = true ∧
    (t.highBit = l.highBit → t.bits.length = l.bits.length →
      (matchField (setFieldLiteral w l) t.toPattern = true ↔ l.bits = t.bits))

/-! ## The Descriptor Table (30_encoding.md) -/

/-- R22 (a) to (c), for the descriptor of every mnemonic under every configuration: the fields tile the 32 bits, register
fields are 5 bits wide and immediate fields 16, and every operand position maps to a declared field. -/
def Obligations.EveryDescriptorTilesTheWord : Prop := ∀ (c : Config) (n : InstrName), (descriptor c n).wf = true

/-- R90 and R22 (d) (the spec marks R90 as derived): under every well-formed configuration, either filler policy included, no
word satisfies two descriptors. -/
def Obligations.NoWordSatisfiesTwoDescriptors : Prop :=
  ∀ c : Config, c.wf = true → ∀ (w : Word) (a b : Descriptor), a ∈ table c → b ∈ table c →
    a.matchesWord w = true → b.matchesWord w = true → a = b

/-- R89 (the spec marks the rule as derived): the (match, mask) pairs of the 16 descriptors, and that a word satisfies a
descriptor's pattern set iff the masked word is the match value. -/
def Obligations.PatternSetsAreTheMatchAndMaskPairs : Prop :=
  (table hardware).map (fun d => (d.matchValue, d.mask)) =
    [(0x00000020#32, 0xFC0007FF#32), (0x00000024#32, 0xFC0007FF#32), (0x00000025#32, 0xFC0007FF#32),
     (0x00000022#32, 0xFC0007FF#32), (0x0000002A#32, 0xFC0007FF#32), (0x0000001A#32, 0xFC00FFFF#32),
     (0x00000018#32, 0xFC00FFFF#32), (0x00000010#32, 0xFFFF07FF#32), (0x00000012#32, 0xFFFF07FF#32),
     (0x20000000#32, 0xFC000000#32), (0x28000000#32, 0xFC000000#32), (0x3C000000#32, 0xFFE00000#32),
     (0x10000000#32, 0xFC000000#32), (0x14000000#32, 0xFC000000#32), (0x8C000000#32, 0xFC000000#32),
     (0xAC000000#32, 0xFC000000#32)] ∧
  ∀ (c : Config) (n : InstrName) (w : Word),
    (descriptor c n).matchesWord w = true ↔ w &&& (descriptor c n).mask = (descriptor c n).matchValue

/-- R91 (the spec marks the rule as derived): a word is legal iff exactly one descriptor accepts it, the legal words are the
Encoder's image, and there are 404 916 288 of them, which leaves 3 890 051 008 illegal ones. -/
def Obligations.LegalWordsAreTheEncodersImageAndAreCounted : Prop :=
  (∀ w : Word, (dispatch hardware w).isSome = true ↔ ∃! d, d ∈ table hardware ∧ d.matchesWord w = true) ∧
  (∀ w : Word, (dispatch hardware w).isSome = true ↔ ∃ m ops, encode hardware m ops = .ok w) ∧
  Nat.card { w : Word // (dispatch hardware w).isSome = true } = 404916288 ∧
  Nat.card { w : Word // (dispatch hardware w).isSome = false } = 3890051008

/-- R92 (the spec marks the rule as derived): the illegal words are exactly those of the six classes. -/
def Obligations.IllegalWordsAreExactlyTheSixClasses : Prop :=
  ∀ w : Word, decode hardware w = .fail .wrongCommand ↔
    (w.extractLsb' 26 6 ∉ [0b000000#6, 0b000100#6, 0b000101#6, 0b001000#6, 0b001010#6, 0b001111#6, 0b100011#6, 0b101011#6]) ∨
    (w.extractLsb' 26 6 = 0b000000#6 ∧ w.extractLsb' 0 6 ∉
      [0b100000#6, 0b100100#6, 0b100101#6, 0b100010#6, 0b101010#6, 0b011010#6, 0b011000#6, 0b010000#6, 0b010010#6]) ∨
    (w.extractLsb' 26 6 = 0b000000#6 ∧ w.extractLsb' 0 6 ∈ [0b100000#6, 0b100100#6, 0b100101#6, 0b100010#6, 0b101010#6] ∧
      w.extractLsb' 6 5 ≠ 0) ∨
    (w.extractLsb' 26 6 = 0b000000#6 ∧ w.extractLsb' 0 6 ∈ [0b011010#6, 0b011000#6] ∧ w.extractLsb' 6 10 ≠ 0) ∨
    (w.extractLsb' 26 6 = 0b000000#6 ∧ w.extractLsb' 0 6 ∈ [0b010000#6, 0b010010#6] ∧
      (w.extractLsb' 21 5 ≠ 0 ∨ w.extractLsb' 16 5 ≠ 0 ∨ w.extractLsb' 6 5 ≠ 0)) ∨
    (w.extractLsb' 26 6 = 0b001111#6 ∧ w.extractLsb' 21 5 ≠ 0)

/-- R95: this hardware evaluates the descriptors in the order of R2, and no well-formed order can be told from another at
the results of `encode` and `decode`. -/
def Obligations.TableOrderCannotBeObserved : Prop :=
  hardware.tableOrder = InstrName.all ∧
  ∀ (c : Config) (order : List InstrName), c.wf = true → ({ c with tableOrder := order } : Config).wf = true →
    (∀ w, decode { c with tableOrder := order } w = decode c w) ∧
    (∀ m ops, encode { c with tableOrder := order } m ops = encode c m ops)

/-- R98 (the spec marks the rule as derived): under the lenient policy a descriptor checks its opcode and its function
constant alone; every word that the strict policy accepts decodes to the same result; the spec's example word decodes to
`ADD 9, 10, 11`, which encodes to a different word. -/
def Obligations.LenientPolicyChecksConstantsOnly : Prop :=
  (∀ (c : Config) (n : InstrName) (w : Word), c.fillerPolicy = .lenient →
    ((descriptor c n).matchesWord w = true ↔
      w.extractLsb' 26 6 = n.opcode ∧ ∀ v, n.funct c = some v → w.extractLsb' 0 6 = v)) ∧
  (∀ (c : Config) (w : Word) (m : Mnemonic) (ops : OperandList), c.wf = true →
    decode { c with fillerPolicy := .strict } w = .ok m ops → decode { c with fillerPolicy := .lenient } w = .ok m ops) ∧
  decode { hardware with fillerPolicy := .lenient } 0x014B4860#32 =
    .ok InstrName.add.mnemonic ⟨.register 9, .register 10, .register 11, .empty⟩ ∧
  encode { hardware with fillerPolicy := .lenient } InstrName.add.mnemonic
    ⟨.register 9, .register 10, .register 11, .empty⟩ = .ok 0x014B4820#32

/-! ## The Encoder (41_encoder_decoder.md section 1) -/

/-- R141: `lookup` finds the descriptor of each of the 16 mnemonics, which are pairwise different, and an unknown mnemonic is
WRONG_COMMAND whatever the operands. -/
def Obligations.MnemonicLookupIsExact : Prop :=
  ∀ c : Config, c.wf = true →
    (∀ n : InstrName, lookup c n.mnemonic = some (descriptor c n)) ∧
    (∀ n n' : InstrName, n.mnemonic = n'.mnemonic → n = n') ∧
    (∀ (m : Mnemonic) (ops : OperandList), (∀ n : InstrName, m ≠ n.mnemonic) →
      lookup c m = none ∧ encode c m ops = .fail .wrongCommand)

/-- R142: the declared positions are taken in increasing order, and the first one whose operand has the wrong type decides
the Outcome, before any range is looked at. -/
def Obligations.FirstWronglyTypedPositionDecides : Prop :=
  (∀ (c : Config) (n : InstrName), (descriptor c n).slotTypes.map Prod.fst =
    [Position.p1, .p2, .p3, .p4].take (descriptor c n).slotTypes.length) ∧
  ∀ (c : Config) (n : InstrName) (ops : OperandList) (before after : List (Position × SlotType)) (k : Position)
    (t : SlotType), c.wf = true → (descriptor c n).slotTypes = before ++ (k, t) :: after →
    (∀ kt ∈ before, (ops.get kt.1).hasType kt.2 = true) → (ops.get k).hasType t = false →
    (t = .register → encode c n.mnemonic ops = .fail .missingReg) ∧
    (t = .immediate → encode c n.mnemonic ops = .fail .invalidParam)

/-- R143, R144, R149: no descriptor has more than one immediate position; when every declared operand has its type, the
result is INVALID_REG iff a declared register exceeds 31; otherwise INVALID_IMMED iff the declared immediate exceeds its
policy's maximum, 0xFFFF for every mnemonic of this hardware; otherwise a Word. -/
def Obligations.RangesAreCheckedRegistersFirst : Prop :=
  (∀ (c : Config) (n : InstrName) (ops : OperandList), c.wf = true →
    (∀ kt ∈ (descriptor c n).slotTypes, (ops.get kt.1).hasType kt.2 = true) →
    (encode c n.mnemonic ops = .fail .invalidReg ↔
      ∃ k, (k, SlotType.register) ∈ (descriptor c n).slotTypes ∧ (ops.get k).value > 31) ∧
    (encode c n.mnemonic ops = .fail .invalidImmed ↔
      (∀ k, (k, SlotType.register) ∈ (descriptor c n).slotTypes → (ops.get k).value ≤ 31) ∧
      ∃ k, (k, SlotType.immediate) ∈ (descriptor c n).slotTypes ∧ (ops.get k).value > (c.immPolicy n).max) ∧
    ((∃ w, encode c n.mnemonic ops = .ok w) ↔
      (∀ k, (k, SlotType.register) ∈ (descriptor c n).slotTypes → (ops.get k).value ≤ 31) ∧
      (∀ k, (k, SlotType.immediate) ∈ (descriptor c n).slotTypes → (ops.get k).value ≤ (c.immPolicy n).max))) ∧
  (∀ n : InstrName, (hardware.immPolicy n).max = 0xFFFF) ∧
  ∀ (c : Config) (n : InstrName), ((descriptor c n).slotTypes.filter (fun kt => kt.2 = .immediate)).length ≤ 1

/-- R145: the Word of a valid request is the match value OR the sum of the operands at their fields. -/
def Obligations.PackingIsMatchValueOrOperandSum : Prop :=
  ∀ (c : Config) (n : InstrName) (ops : OperandList), c.wf = true → (descriptor c n).validOperands ops = true →
    encode c n.mnemonic ops = .ok ((descriptor c n).matchValue |||
      BitVec.ofNat 32 ((descriptor c n).operandMap.map (fun kf => (ops.get kf.1).value * 2 ^ kf.2.field.lowBit)).sum)

/-- R146: what stands in a position the descriptor does not declare does not change the result; and which positions each
format declares. -/
def Obligations.UndeclaredPositionsAreNotExamined : Prop :=
  (∀ (c : Config) (n : InstrName) (ops ops' : OperandList),
    (∀ k, (descriptor c n).declares k = true → ops.get k = ops'.get k) →
    encode c n.mnemonic ops = encode c n.mnemonic ops') ∧
  ∀ (c : Config) (n : InstrName), [Position.p1, .p2, .p3, .p4].filter (fun k => (descriptor c n).declares k) =
    match n.format with
    | .r1 => [.p1]
    | .r2 | .lui => [.p1, .p2]
    | .r3 | .i | .br | .ls => [.p1, .p2, .p3]

/-- R233 (the spec marks the rule as derived): which Outcomes an encode request of each mnemonic can end with. -/
def Obligations.OutcomesOfEachMnemonic : Prop :=
  ∀ (n : InstrName) (o : Outcome), (∃ ops, (encode hardware n.mnemonic ops).outcome = o) ↔
    o ∈ [Outcome.missingReg, .invalidReg, .completeEncode] ∨
    (n ∈ [InstrName.addi, .slti, .lui, .beq, .bne, .lw, .sw] ∧ o ∈ [Outcome.invalidParam, .invalidImmed])

/-! ## The Decoder (41_encoder_decoder.md section 2) -/

/-- R151: the descriptor a word satisfies is the one decoded by, a word that satisfies none is WRONG_COMMAND, and a word
satisfies a descriptor iff the masked word is the match value. -/
def Obligations.DecodeFollowsTheMatchingDescriptor : Prop :=
  ∀ (c : Config) (w : Word), c.wf = true →
    (∀ n : InstrName, (descriptor c n).matchesWord w = true →
      dispatch c w = some (descriptor c n) ∧ decode c w = .ok n.mnemonic ((descriptor c n).extractOperands w)) ∧
    ((∀ n : InstrName, (descriptor c n).matchesWord w = false) → decode c w = .fail .wrongCommand) ∧
    ∀ n : InstrName, (descriptor c n).matchesWord w = true ↔ w &&& (descriptor c n).mask = (descriptor c n).matchValue

/-- R152, R153: a word that satisfies a descriptor decodes with COMPLETE_DECODE to its mnemonic and an operand list in which
each declared field stands at its canonical position with its type, every other position is `EMPTY`, the operand count is
that of the format, registers are at most 31 and immediates at most 0xFFFF. -/
def Obligations.DecodedOperandsStandAtCanonicalPositions : Prop :=
  ∀ (c : Config) (n : InstrName) (w : Word), c.wf = true → (descriptor c n).matchesWord w = true →
    ∃ ops, decode c w = .ok n.mnemonic ops ∧ (decode c w).outcome = .completeDecode ∧
      (∀ k r, (k, OperandField.reg r) ∈ (descriptor c n).operandMap → ops.get k = .register (getField w r.field)) ∧
      (∀ k, (k, OperandField.imm) ∈ (descriptor c n).operandMap → ops.get k = .immediate (getField w immField)) ∧
      (∀ k, (∀ f, (k, f) ∉ (descriptor c n).operandMap) → ops.get k = .empty) ∧ ops.op4 = .empty ∧
      ([Position.p1, .p2, .p3, .p4].filter (fun k => ops.get k ≠ .empty)).length =
        (match n.format with
          | .r3 | .i | .br | .ls => 3
          | .r2 | .lui => 2
          | .r1 => 1) ∧
      (∀ k r, ops.get k = .register r → r ≤ 31) ∧
      (∀ k v, ops.get k = .immediate v → v ≤ 0xFFFF)

/-! ## Round trip (41_encoder_decoder.md section 3) -/

/-- R160, under every well-formed configuration and either filler policy: encoding succeeds exactly on the valid requests,
and decoding the word gives back the mnemonic and the operands, undeclared positions normalised to `EMPTY`. -/
def Obligations.DecodeAfterEncodeGivesTheRequestBack : Prop :=
  ∀ (c : Config) (n : InstrName) (ops : OperandList), c.wf = true →
    ((descriptor c n).validOperands ops = true ↔ ∃ w, encode c n.mnemonic ops = .ok w) ∧
    ∀ w, encode c n.mnemonic ops = .ok w → decode c w = .ok n.mnemonic ((descriptor c n).normalise ops)

/-- R161 (the spec marks the rule as derived), under every well-formed configuration with the strict filler policy and policy
U16 for every mnemonic: what a word decodes to is valid and encodes to that word. -/
def Obligations.EncodeAfterDecodeGivesTheWordBack : Prop :=
  ∀ c : Config, c.wf = true → c.fillerPolicy = .strict → (∀ n, c.immPolicy n = .u16) →
    ∀ (w : Word) (m : Mnemonic) (ops : OperandList), decode c w = .ok m ops →
      (∃ n : InstrName, m = n.mnemonic ∧ (descriptor c n).validOperands ops = true) ∧ encode c m ops = .ok w

/-- R162 (the spec marks the rule as derived): distinct normalised requests encode to distinct words, and the words encoded
are exactly those that decode. -/
def Obligations.EncodeIsABijectionOntoLegalWords : Prop :=
  (∀ (n n' : InstrName) (ops ops' : OperandList) (w : Word), encode hardware n.mnemonic ops = .ok w →
    encode hardware n'.mnemonic ops' = .ok w →
    n = n' ∧ (descriptor hardware n).normalise ops = (descriptor hardware n').normalise ops') ∧
  ∀ w : Word, (∃ m ops, encode hardware m ops = .ok w) ↔ (∃ m ops, decode hardware w = .ok m ops)

/-- For every instruction well formed under a well-formed configuration, with every operand at every value: it encodes to a
word, and that word decodes to it. -/
def Obligations.DecodeInstrInvertsEncodeInstr : Prop :=
  ∀ (c : Config) (i : Instr), c.wf = true → i.wf c = true → ∃ w, encodeInstr c i = .ok w ∧ decodeInstr c w = .ok i

/-- The other direction, under the strict policy: a word that decodes to a well-formed instruction is its encoding. -/
def Obligations.EncodeInstrInvertsDecodeInstr : Prop :=
  ∀ (c : Config) (w : Word) (i : Instr), c.wf = true → c.fillerPolicy = .strict → decodeInstr c w = .ok i →
    i.wf c = true → encodeInstr c i = .ok w

/-! ## The rule of each instruction (42 to 47): encode, Outcomes, decode -/

/-- R180: `ADD`. -/
def Obligations.AddEncodesAndDecodes : Prop :=
  (∀ ops : OperandList, encode hardware InstrName.add.mnemonic ops =
    match ops.op1, ops.op2, ops.op3 with
    | .register rd, .register rs, .register rt =>
      if rd > 31 ∨ rs > 31 ∨ rt > 31 then .fail .invalidReg
      else .ok (BitVec.ofNat 32 (rs * 2 ^ 21 + rt * 2 ^ 16 + rd * 2 ^ 11 + 0x20))
    | _, _, _ => .fail .missingReg) ∧
  ∀ (w : Word) (ops : OperandList), decode hardware w = .ok InstrName.add.mnemonic ops ↔
    w &&& 0xFC0007FF#32 = 0x00000020#32 ∧
    ops = ⟨.register (w.extractLsb' 11 5).toNat, .register (w.extractLsb' 21 5).toNat,
           .register (w.extractLsb' 16 5).toNat, .empty⟩

/-- `AND`, `OR`, `SUB`, `SLT` (R181 to R184), with the function constants that the spec takes from general knowledge (log
entry 4). -/
def Obligations.ThreeRegisterInstructionsEncodeAndDecode : Prop :=
  ∀ p ∈ [(InstrName.and, 0x24), (InstrName.or, 0x25), (InstrName.sub, 0x22), (InstrName.slt, 0x2A)],
    (∀ ops : OperandList, encode hardware p.1.mnemonic ops =
      match ops.op1, ops.op2, ops.op3 with
      | .register rd, .register rs, .register rt =>
        if rd > 31 ∨ rs > 31 ∨ rt > 31 then .fail .invalidReg
        else .ok (BitVec.ofNat 32 (rs * 2 ^ 21 + rt * 2 ^ 16 + rd * 2 ^ 11 + p.2))
      | _, _, _ => .fail .missingReg) ∧
    ∀ (w : Word) (ops : OperandList), decode hardware w = .ok p.1.mnemonic ops ↔
      w &&& 0xFC0007FF#32 = BitVec.ofNat 32 p.2 ∧
      ops = ⟨.register (w.extractLsb' 11 5).toNat, .register (w.extractLsb' 21 5).toNat,
             .register (w.extractLsb' 16 5).toNat, .empty⟩

/-- R190, R191: `DIV`, `MULT`. -/
def Obligations.TwoRegisterInstructionsEncodeAndDecode : Prop :=
  ∀ p ∈ [(InstrName.div, 0x1A), (InstrName.mult, 0x18)],
    (∀ ops : OperandList, encode hardware p.1.mnemonic ops =
      match ops.op1, ops.op2 with
      | .register rs, .register rt =>
        if rs > 31 ∨ rt > 31 then .fail .invalidReg
        else .ok (BitVec.ofNat 32 (rs * 2 ^ 21 + rt * 2 ^ 16 + p.2))
      | _, _ => .fail .missingReg) ∧
    ∀ (w : Word) (ops : OperandList), decode hardware w = .ok p.1.mnemonic ops ↔
      w &&& 0xFC00FFFF#32 = BitVec.ofNat 32 p.2 ∧
      ops = ⟨.register (w.extractLsb' 21 5).toNat, .register (w.extractLsb' 16 5).toNat, .empty, .empty⟩

/-- R195, R196: `MFHI`, `MFLO`. -/
def Obligations.SingleRegisterInstructionsEncodeAndDecode : Prop :=
  ∀ p ∈ [(InstrName.mfhi, 0x10), (InstrName.mflo, 0x12)],
    (∀ ops : OperandList, encode hardware p.1.mnemonic ops =
      match ops.op1 with
      | .register rd => if rd > 31 then .fail .invalidReg else .ok (BitVec.ofNat 32 (rd * 2 ^ 11 + p.2))
      | _ => .fail .missingReg) ∧
    ∀ (w : Word) (ops : OperandList), decode hardware w = .ok p.1.mnemonic ops ↔
      w &&& 0xFFFF07FF#32 = BitVec.ofNat 32 p.2 ∧ ops = ⟨.register (w.extractLsb' 11 5).toNat, .empty, .empty, .empty⟩

/-- R200, R201: `ADDI`, `SLTI`. -/
def Obligations.ImmediateInstructionsEncodeAndDecode : Prop :=
  ∀ p ∈ [(InstrName.addi, 0x20000000), (InstrName.slti, 0x28000000)],
    (∀ ops : OperandList, encode hardware p.1.mnemonic ops =
      match ops.op1, ops.op2, ops.op3 with
      | .register rt, .register rs, .immediate imm =>
        if rt > 31 ∨ rs > 31 then .fail .invalidReg
        else if imm > 0xFFFF then .fail .invalidImmed
        else .ok (BitVec.ofNat 32 (p.2 + rs * 2 ^ 21 + rt * 2 ^ 16 + imm))
      | .register _, .register _, _ => .fail .invalidParam
      | _, _, _ => .fail .missingReg) ∧
    ∀ (w : Word) (ops : OperandList), decode hardware w = .ok p.1.mnemonic ops ↔
      w &&& 0xFC000000#32 = BitVec.ofNat 32 p.2 ∧
      ops = ⟨.register (w.extractLsb' 16 5).toNat, .register (w.extractLsb' 21 5).toNat,
             .immediate (w.extractLsb' 0 16).toNat, .empty⟩

/-- R202: `LUI`. -/
def Obligations.LuiEncodesAndDecodes : Prop :=
  (∀ ops : OperandList, encode hardware InstrName.lui.mnemonic ops =
    match ops.op1, ops.op2 with
    | .register rt, .immediate imm =>
      if rt > 31 then .fail .invalidReg
      else if imm > 0xFFFF then .fail .invalidImmed
      else .ok (BitVec.ofNat 32 (0x3C000000 + rt * 2 ^ 16 + imm))
    | .register _, _ => .fail .invalidParam
    | _, _ => .fail .missingReg) ∧
  ∀ (w : Word) (ops : OperandList), decode hardware w = .ok InstrName.lui.mnemonic ops ↔
    w &&& 0xFFE00000#32 = 0x3C000000#32 ∧
    ops = ⟨.register (w.extractLsb' 16 5).toNat, .immediate (w.extractLsb' 0 16).toNat, .empty, .empty⟩

/-- R210, R211: `BEQ`, `BNE`. -/
def Obligations.BranchInstructionsEncodeAndDecode : Prop :=
  ∀ p ∈ [(InstrName.beq, 0x10000000), (InstrName.bne, 0x14000000)],
    (∀ ops : OperandList, encode hardware p.1.mnemonic ops =
      match ops.op1, ops.op2, ops.op3 with
      | .register rs, .register rt, .immediate off =>
        if rs > 31 ∨ rt > 31 then .fail .invalidReg
        else if off > 0xFFFF then .fail .invalidImmed
        else .ok (BitVec.ofNat 32 (p.2 + rs * 2 ^ 21 + rt * 2 ^ 16 + off))
      | .register _, .register _, _ => .fail .invalidParam
      | _, _, _ => .fail .missingReg) ∧
    ∀ (w : Word) (ops : OperandList), decode hardware w = .ok p.1.mnemonic ops ↔
      w &&& 0xFC000000#32 = BitVec.ofNat 32 p.2 ∧
      ops = ⟨.register (w.extractLsb' 21 5).toNat, .register (w.extractLsb' 16 5).toNat,
             .immediate (w.extractLsb' 0 16).toNat, .empty⟩

/-- R215, R216: `LW`, `SW`, whose immediate stands at position 2. -/
def Obligations.LoadStoreInstructionsEncodeAndDecode : Prop :=
  ∀ p ∈ [(InstrName.lw, 0x8C000000), (InstrName.sw, 0xAC000000)],
    (∀ ops : OperandList, encode hardware p.1.mnemonic ops =
      match ops.op1, ops.op2, ops.op3 with
      | .register rt, .immediate off, .register rs =>
        if rt > 31 ∨ rs > 31 then .fail .invalidReg
        else if off > 0xFFFF then .fail .invalidImmed
        else .ok (BitVec.ofNat 32 (p.2 + rs * 2 ^ 21 + rt * 2 ^ 16 + off))
      | .register _, .immediate _, _ => .fail .missingReg
      | .register _, _, _ => .fail .invalidParam
      | _, _, _ => .fail .missingReg) ∧
    ∀ (w : Word) (ops : OperandList), decode hardware w = .ok p.1.mnemonic ops ↔
      w &&& 0xFC000000#32 = BitVec.ofNat 32 p.2 ∧
      ops = ⟨.register (w.extractLsb' 16 5).toNat, .immediate (w.extractLsb' 0 16).toNat,
             .register (w.extractLsb' 21 5).toNat, .empty⟩

/-! ## What running an instruction's word leaves (10_state.md R35 to R37; 42 to 47)

Each conclusion is an equation: the instruction completes in every state, the decoder outputs are as said, and no other
signal changes, the encoder port's among them. Mnemonics are written as their port values. -/

/-- `ADD`, `AND`, `OR`, `SUB`, `SLT` deliver Rd, Rs, Rt. -/
def Obligations.ThreeRegisterInstructionsDeliverTheirOperands : Prop :=
  ∀ (rd rs rt : RegNum) (s : State) (p : Instr × hardware.MnemPort),
    p ∈ [(Instr.add rd rs rt, 0x41444400), (Instr.and rd rs rt, 0x414E4400), (Instr.or rd rs rt, 0x4F520000),
         (Instr.sub rd rs rt, 0x53554200), (Instr.slt rd rs rt, 0x534C5400)] →
    exec p.1 s = .next { s with decOut :=
      { outcome := 0b111, mnemonic := p.2, op1 := ⟨0b01#2, rd.setWidth _⟩, op2 := ⟨0b01#2, rs.setWidth _⟩,
        op3 := ⟨0b01#2, rt.setWidth _⟩, op4 := ⟨0b00#2, 0⟩ } }

/-- `DIV`, `MULT` deliver Rs, Rt. -/
def Obligations.TwoRegisterInstructionsDeliverTheirOperands : Prop :=
  ∀ (rs rt : RegNum) (s : State) (p : Instr × hardware.MnemPort),
    p ∈ [(Instr.div rs rt, 0x44495600), (Instr.mult rs rt, 0x4D554C54)] →
    exec p.1 s = .next { s with decOut :=
      { outcome := 0b111, mnemonic := p.2, op1 := ⟨0b01#2, rs.setWidth _⟩, op2 := ⟨0b01#2, rt.setWidth _⟩,
        op3 := ⟨0b00#2, 0⟩, op4 := ⟨0b00#2, 0⟩ } }

/-- `MFHI`, `MFLO` deliver Rd. -/
def Obligations.SingleRegisterInstructionsDeliverTheirOperand : Prop :=
  ∀ (rd : RegNum) (s : State) (p : Instr × hardware.MnemPort),
    p ∈ [(Instr.mfhi rd, 0x4D464849), (Instr.mflo rd, 0x4D464C4F)] →
    exec p.1 s = .next { s with decOut :=
      { outcome := 0b111, mnemonic := p.2, op1 := ⟨0b01#2, rd.setWidth _⟩, op2 := ⟨0b00#2, 0⟩, op3 := ⟨0b00#2, 0⟩,
        op4 := ⟨0b00#2, 0⟩ } }

/-- `ADDI`, `SLTI` deliver Rt, Rs and the immediate, `LUI` delivers Rt and the immediate, never sign-extended or shifted. -/
def Obligations.ImmediateInstructionsDeliverTheirOperands : Prop :=
  ∀ (rt rs : RegNum) (imm : Imm16) (s : State),
    (∀ p : Instr × hardware.MnemPort, p ∈ [(Instr.addi rt rs imm, 0x41444449), (Instr.slti rt rs imm, 0x534C5449)] →
      exec p.1 s = .next { s with decOut :=
        { outcome := 0b111, mnemonic := p.2, op1 := ⟨0b01#2, rt.setWidth _⟩, op2 := ⟨0b01#2, rs.setWidth _⟩,
          op3 := ⟨0b10#2, imm.setWidth _⟩, op4 := ⟨0b00#2, 0⟩ } }) ∧
    exec (.lui rt imm) s = .next { s with decOut :=
      { outcome := 0b111, mnemonic := 0x4C554900, op1 := ⟨0b01#2, rt.setWidth _⟩, op2 := ⟨0b10#2, imm.setWidth _⟩,
        op3 := ⟨0b00#2, 0⟩, op4 := ⟨0b00#2, 0⟩ } }

/-- `BEQ`, `BNE` deliver Rs, Rt and the offset. -/
def Obligations.BranchInstructionsDeliverTheirOperands : Prop :=
  ∀ (rs rt : RegNum) (off : Imm16) (s : State) (p : Instr × hardware.MnemPort),
    p ∈ [(Instr.beq rs rt off, 0x42455100), (Instr.bne rs rt off, 0x424E4500)] →
    exec p.1 s = .next { s with decOut :=
      { outcome := 0b111, mnemonic := p.2, op1 := ⟨0b01#2, rs.setWidth _⟩, op2 := ⟨0b01#2, rt.setWidth _⟩,
        op3 := ⟨0b10#2, off.setWidth _⟩, op4 := ⟨0b00#2, 0⟩ } }

/-- `LW`, `SW` deliver Rt, the offset and Rs. -/
def Obligations.LoadStoreInstructionsDeliverTheirOperands : Prop :=
  ∀ (rt : RegNum) (off : Imm16) (rs : RegNum) (s : State) (p : Instr × hardware.MnemPort),
    p ∈ [(Instr.lw rt off rs, 0x4C570000), (Instr.sw rt off rs, 0x53570000)] →
    exec p.1 s = .next { s with decOut :=
      { outcome := 0b111, mnemonic := p.2, op1 := ⟨0b01#2, rt.setWidth _⟩, op2 := ⟨0b10#2, off.setWidth _⟩,
        op3 := ⟨0b01#2, rs.setWidth _⟩, op4 := ⟨0b00#2, 0⟩ } }

/-! ## The ports (10_state.md) and the step -/

/-- 00_scope.md R5 for the three port widths: this hardware's are 32 bits, 4 bytes and 3 bits; and under every configuration
whose ports are wide enough the Outcome codes differ, the port value of a mnemonic stands for it and for no other, and a
valid operand driven at a port reads back. -/
def Obligations.PortsCarryTheirValuesAtEveryConfiguredWidth : Prop :=
  (hardware.opvalW = 32 ∧ hardware.mnemBytes = 4 ∧ hardware.outcomeW = 3 ∧ hardware.portsWf = true) ∧
  ∀ c : Config, c.portsWf = true →
    (∀ o o' : Outcome, o.code (c := c) = o'.code → o = o') ∧
    (∀ (p : c.MnemPort) (n : InstrName), portMnemonic p = n.mnemonic ↔ p = mnemonicPort n.mnemonic) ∧
    ∀ (policy : ImmPolicy) (t : SlotType) (o : Operand), o.validFor policy t = true → (operandPort (c := c) o).operand = o

/-- R25: the 3-bit codes of the eight Outcomes, and which of them an encode and a decode can end with. -/
def Obligations.OutcomeCodesAndTheirProducers : Prop :=
  hardware.outcomeW = 3 ∧
  [Outcome.noError, .wrongCommand, .missingReg, .invalidParam, .invalidReg, .invalidImmed, .completeEncode,
    .completeDecode].map (Outcome.code (c := hardware)) = [0b000, 0b001, 0b010, 0b011, 0b100, 0b101, 0b110, 0b111] ∧
  (∀ (m : Mnemonic) (ops : OperandList), (encode hardware m ops).outcome ∈
    [Outcome.wrongCommand, .missingReg, .invalidParam, .invalidReg, .invalidImmed, .completeEncode]) ∧
  ∀ w : Word, (decode hardware w).outcome ∈ [Outcome.wrongCommand, .completeDecode]

/-- R36: a port value names a mnemonic iff it is that mnemonic's encoding, any other value is unknown to the encoder, and the
16 encodings. -/
def Obligations.MnemonicPortIsExact : Prop :=
  hardware.mnemBytes = 4 ∧
  (∀ (p : hardware.MnemPort) (n : InstrName), portMnemonic p = n.mnemonic ↔ p = mnemonicPort n.mnemonic) ∧
  (∀ (p : hardware.MnemPort) (ops : OperandList), (∀ n : InstrName, p ≠ mnemonicPort n.mnemonic) →
    encode hardware (portMnemonic p) ops = .fail .wrongCommand) ∧
  InstrName.all.map (fun n => mnemonicPort (c := hardware) n.mnemonic) =
    [0x41444400, 0x414E4400, 0x4F520000, 0x53554200, 0x534C5400, 0x44495600, 0x4D554C54,
     0x4D464849, 0x4D464C4F, 0x41444449, 0x534C5449, 0x4C554900, 0x42455100, 0x424E4500,
     0x4C570000, 0x53570000]

/-- R37: the tag codes, tag `11` and the ignored value of an `EMPTY` operand, and what the decoder drives. -/
def Obligations.OperandPortFollowsTheTagCodes : Prop :=
  hardware.opvalW = 32 ∧
  (∀ v : hardware.OpVal, OperandPort.operand ⟨0b00#2, v⟩ = .empty ∧ OperandPort.operand ⟨0b01#2, v⟩ = .register v.toNat ∧
    OperandPort.operand ⟨0b10#2, v⟩ = .immediate v.toNat ∧ OperandPort.operand ⟨0b11#2, v⟩ = .empty) ∧
  ∀ (w : Word) (m : Mnemonic) (ops : OperandList) (k : Position), decode hardware w = .ok m ops →
    (operandPort (c := hardware) (ops.get k)).operand = ops.get k ∧
    (ops.get k = .empty → operandPort (c := hardware) (ops.get k) = ⟨0b00#2, 0⟩) ∧
    (∀ r, ops.get k = .register r → (operandPort (c := hardware) (ops.get k)).tag = 0b01#2 ∧ (operandPort (c := hardware) (ops.get k)).val.toNat ≤ 31) ∧
    (∀ v, ops.get k = .immediate v → (operandPort (c := hardware) (ops.get k)).tag = 0b10#2 ∧ (operandPort (c := hardware) (ops.get k)).val.toNat ≤ 0xFFFF)

/-- R34: the widths of the encoder port, and what a transaction drives there. -/
def Obligations.EncoderPortDrivesTheEncodeResult : Prop :=
  (hardware.mnemBytes = 4 ∧ hardware.opvalW = 32 ∧ hardware.outcomeW = 3) ∧
  ∀ s t : State, step s = .next t →
    (s.encIn.valid = false → t.encOut = ⟨0b000, 0⟩) ∧
    (s.encIn.valid = true →
      (∀ w, encode hardware (portMnemonic s.encIn.mnemonic) s.encIn.operands = .ok w → t.encOut = ⟨0b110, w⟩) ∧
      (∀ o, encode hardware (portMnemonic s.encIn.mnemonic) s.encIn.operands = .fail o → t.encOut = ⟨o.code, 0⟩))

/-- R35: the widths of the decoder port, and what a transaction drives there, in terms of the abstract decoder. -/
def Obligations.DecoderPortDrivesTheDecodeResult : Prop :=
  (hardware.mnemBytes = 4 ∧ hardware.opvalW = 32 ∧ hardware.outcomeW = 3) ∧
  ∀ s t : State, step s = .next t →
    (s.decIn.valid = false → t.decOut = ⟨0b000, 0, ⟨0b00#2, 0⟩, ⟨0b00#2, 0⟩, ⟨0b00#2, 0⟩, ⟨0b00#2, 0⟩⟩) ∧
    (s.decIn.valid = true →
      (decode hardware s.decIn.word = .fail .wrongCommand →
        t.decOut = ⟨0b001, 0, ⟨0b00#2, 0⟩, ⟨0b00#2, 0⟩, ⟨0b00#2, 0⟩, ⟨0b00#2, 0⟩⟩) ∧
      (∀ m ops, decode hardware s.decIn.word = .ok m ops →
        t.decOut = ⟨0b111, mnemonicPort m, operandPort ops.op1, operandPort ops.op2, operandPort ops.op3,
          operandPort ops.op4⟩))

/-- A step is one transaction of the two pure functions of R9: the outputs are the responses to the inputs by the abstract
`encode` and `decode`, and the inputs stay as the outside world drives them (log entry 1). -/
def Obligations.StepRefinesTheTwoPureFunctions : Prop :=
  ∀ s : State, step s = .next { s with encOut := s.encIn.response, decOut := s.decIn.response }

/-- When the presented word decodes to an instruction, the step is the encoder port's transaction followed by that
instruction's meaning; a word that decodes to none ends in its Outcome, and no word in the idle value. `withFetchWord`
presents a word. -/
def Obligations.StepRunsTheDecodedInstruction : Prop :=
  (∀ (s : State) (i : Instr), s.decIn.valid = true → decodeInstr hardware s.decIn.word = .ok i →
    step s = exec i (serveEncoder s)) ∧
  (∀ (s : State) (o : Outcome), s.decIn.valid = true → decodeInstr hardware s.decIn.word = .error o →
    step s = .next (failDecode o (serveEncoder s))) ∧
  (∀ s : State, s.decIn.valid = false → step s = .next (idleDecode (serveEncoder s))) ∧
  (∀ (s : State) (w : Nat) (i : Instr), decodeTableWord 32 w = some i →
    step (s.withFetchWord 32 w) = exec i (serveEncoder (s.withFetchWord 32 w)))

/-- R243 (the spec marks the rule as derived): no request stops the block. -/
def Obligations.EveryStepAnswersANextState : Prop := ∀ s : State, Safe s

/-- R256: the result of a request B after any request A, from any state, equals the result of B alone. -/
def Obligations.ResultOfARequestDoesNotDependOnEarlierOnes : Prop :=
  ∀ (s : State) (encA encB : EncInputs hardware) (decA decB : DecInputs) (afterA afterB alone : State),
    step ((s.withEncIn encA).withDecIn decA) = .next afterA →
    step ((afterA.withEncIn encB).withDecIn decB) = .next afterB →
    step ((State.reset.withEncIn encB).withDecIn decB) = .next alone → afterB = alone

/-- R165 (the spec marks the rule as derived): each port's outputs depend on that port's inputs alone. -/
def Obligations.PortsAreIndependent : Prop :=
  ∀ s s' t t' : State, step s = .next t → step s' = .next t' →
    (s.encIn = s'.encIn → t.encOut = t'.encOut) ∧ (s.decIn = s'.decIn → t.decOut = t'.decOut)

/-- 20_memory.md section 1: presenting the same request twice gives the same result. -/
def Obligations.PresentingARequestTwiceGivesTheSameResult : Prop :=
  ∀ s t : State, step s = .next t → step t = .next t

/-- The invariant: whatever signals a step starts from, the outputs it leaves are ones the spec lets the ports drive. -/
def Obligations.EveryStepLeavesLegalOutputs : Prop := ∀ s t : State, step s = .next t → t.Legal

/-- The invariant holds right after reset. -/
def Obligations.ResetOutputsAreLegal : Prop := State.reset.Legal

/-- The idle outputs of the spec's reset list. The inputs' values are the model's choice (log entry 2) and are not stated. -/
def Obligations.ResetDrivesTheIdleOutputs : Prop :=
  State.reset.encOut = ⟨0b000, 0⟩ ∧
  State.reset.decOut = ⟨0b000, 0, ⟨0b00#2, 0⟩, ⟨0b00#2, 0⟩, ⟨0b00#2, 0⟩, ⟨0b00#2, 0⟩⟩

/-- Words written out from the spec's encodings, one or more of each format, and what each decodes to. -/
def Obligations.WordsOfTheSpecDecode : Prop :=
  decodeTableWord 32 0b000000_01010_01011_01001_00000_100000 = some (.add 9 10 11) ∧
  decodeTableWord 32 0b000000_01010_01011_0000000000_011010 = some (.div 10 11) ∧
  decodeTableWord 32 0b000000_00000_00000_01001_00000_010000 = some (.mfhi 9) ∧
  decodeTableWord 32 0b001000_01001_01000_0000000000001010 = some (.addi 8 9 10) ∧
  decodeTableWord 32 0b001111_00000_01000_0001001000110100 = some (.lui 8 0x1234) ∧
  decodeTableWord 32 0b000100_10000_10001_0000000000100000 = some (.beq 16 17 0x20) ∧
  decodeTableWord 32 0b100011_10001_01000_0000000000000100 = some (.lw 8 4 17) ∧
  decodeTableWord 32 0b101011_10001_01000_0000000000000100 = some (.sw 8 4 17) ∧
  decodeTableWord 32 0 = none

/-- A Word serialised in a byte order and read back in the same order is that Word, whichever order a harness chooses. -/
def Obligations.SerialisedWordReadsBack : Prop :=
  ∀ (order : ByteOrder) (w : Word), bytesWord order (wordBytes order w) = some w
end

