-- ==== Sys2Proof/Laws/BitField.lean ====
section
/-! SUPPORT. What each definition of the BitField Codec says bit by bit (40_codec_primitives.md): bounds of a field, its mask,
the value of a literal, the two masks of a pattern, and the loop of `matchField`. -/

namespace Sys2Proof

/-! ## Fields -/

/-- The domain of R120, as inequalities. -/
theorem BitField.bounds (f : BitField) : f.highBit ≤ 31 ∧ 1 ≤ f.width ∧ f.lowBit + f.width = f.highBit + 1 := by
  have h := f.ok
  simp only [fieldInDomain, Bool.and_eq_true, decide_eq_true_eq] at h
  simp only [BitField.lowBit]; omega

/-- The field mask has its ones exactly in the field (R120). -/
theorem fieldMask_getLsbD (f : BitField) (i : Nat) (hi : i < 32) :
    (fieldMask f).getLsbD i = decide (f.lowBit ≤ i ∧ i ≤ f.highBit) := by
  have hb := f.bounds
  simp only [fieldMask, BitVec.getLsbD_ofNat, hi, decide_true, Bool.true_and]
  rw [Nat.testBit_mul_two_pow, Nat.testBit_two_pow_sub_one]
  by_cases h : f.lowBit ≤ i
  · simp [h]; omega
  · simp [h]

theorem BitField.lowBit_eq (f : BitField) : f.lowBit = f.highBit + 1 - f.width := rfl
@[simp] theorem FieldLiteral.field_width (l : FieldLiteral) : l.field.width = l.bits.length := rfl
@[simp] theorem FieldLiteral.field_highBit (l : FieldLiteral) : l.field.highBit = l.highBit := rfl
@[simp] theorem FieldPattern.field_width (p : FieldPattern) : p.field.width = p.bits.length := rfl
@[simp] theorem FieldPattern.field_highBit (p : FieldPattern) : p.field.highBit = p.highBit := rfl
@[simp] theorem opcodeField_lowBit : opcodeField.lowBit = 26 := rfl
@[simp] theorem rsField_lowBit : rsField.lowBit = 21 := rfl
@[simp] theorem rtField_lowBit : rtField.lowBit = 16 := rfl
@[simp] theorem rdField_lowBit : rdField.lowBit = 11 := rfl
@[simp] theorem functField_lowBit : functField.lowBit = 0 := rfl
@[simp] theorem immField_lowBit : immField.lowBit = 0 := rfl

/-! ## Literals -/

theorem bitsValue_lt (bs : List Bit) : bitsValue bs < 2 ^ bs.length := by
  induction bs with
  | nil => simp [bitsValue]
  | cons b bs ih => simp only [bitsValue, List.length_cons, pow_succ]; cases b <;> simp [Bit.toNat] <;> omega

/-- Bit `i` of a literal's value is its character `i` from the right (R122). -/
theorem bitsValue_testBit (bs : List Bit) : ∀ i, (bitsValue bs).testBit i =
    if h : i < bs.length then (bs[bs.length - 1 - i] == Bit.b1) else false := by
  induction bs with
  | nil => simp [bitsValue]
  | cons b bs ih =>
    intro i
    simp only [bitsValue]
    rw [Nat.mul_comm, Nat.testBit_two_pow_mul_add _ (bitsValue_lt bs)]
    by_cases h : i < bs.length
    · have h2 : i < (b :: bs).length := by simp; omega
      simp only [h, h2, if_true, dif_pos, ih]
      congr 1
      rw [List.getElem_cons]
      have : ¬ ((b :: bs).length - 1 - i = 0) := by simp; omega
      simp only [this, dite_false]
      congr 1; simp; omega
    · by_cases h3 : i = bs.length
      · subst h3; simp; cases b <;> rfl
      · have h2 : ¬ i < (b :: bs).length := by simp; omega
        simp only [h, h2, if_false, dif_neg, not_false_eq_true]
        have : i - bs.length ≠ 0 := by omega
        have : (1:Nat).testBit (i - bs.length) = false := by
          rw [Nat.testBit_eq_false_of_lt]; exact Nat.one_lt_two_pow (by omega)
        cases b <;> simp [Bit.toNat, this]

/-- Two literals of one length with one value are one literal. -/
theorem bitsValue_inj : ∀ (a b : List Bit), a.length = b.length → bitsValue a = bitsValue b → a = b := by
  intro a
  induction a with
  | nil => intro b h _; simpa using h.symm
  | cons x a ih =>
    intro b h hv
    cases b with
    | nil => simp at h
    | cons y b =>
      simp only [List.length_cons, add_left_inj] at h
      simp only [bitsValue, h] at hv
      have ha := bitsValue_lt a
      have hb := bitsValue_lt b
      rw [h] at ha
      cases x <;> cases y <;> simp [Bit.toNat] at hv
      · simp [ih b h hv]
      · omega
      · omega
      · simp [ih b h hv]

/-- The string of a six-bit constant has the constant's value. -/
theorem bits6_value : ∀ v : BitVec 6, bitsValue (bits6 v) = v.toNat := by decide

theorem bitsValue_replicate_b0 (n : Nat) : bitsValue (List.replicate n Bit.b0) = 0 := by
  induction n with
  | zero => rfl
  | succ n ih => simp [List.replicate_succ, bitsValue, ih, Bit.toNat]

/-! ## Patterns -/

/-- The loop of R124, position by position. -/
theorem matchBits_iff (w : Word) : ∀ (ps : List PatBit) (h : Nat), ps.length ≤ h + 1 →
    (matchBits w h ps = true ↔ ∀ (i : Nat) (hi : i < ps.length),
        (ps[i] = PatBit.b0 → w.getLsbD (h - i) = false) ∧ (ps[i] = PatBit.b1 → w.getLsbD (h - i) = true)) := by
  intro ps
  induction ps with
  | nil => simp [matchBits]
  | cons p ps ih =>
    intro h hl
    simp only [List.length_cons] at hl
    rw [matchBits, Bool.and_eq_true]
    by_cases hps : ps = []
    · subst hps; cases p <;> simp [matchBits, PatBit.accepts]
    · have : 0 < ps.length := List.length_pos_iff.mpr hps
      rw [ih (h - 1) (by omega)]
      constructor
      · rintro ⟨h1, h2⟩ i hi
        cases i with
        | zero => cases p <;> simp_all [PatBit.accepts]
        | succ i => 
          have := h2 i (by simpa using hi)
          simpa [Nat.sub_sub, Nat.add_comm] using this
      · intro hall
        refine ⟨?_, fun i hi => ?_⟩
        · have := hall 0 (by simp)
          cases p <;> simp_all [PatBit.accepts]
        · have := hall (i+1) (by simpa using hi)
          simpa [Nat.sub_sub, Nat.add_comm] using this

/-- The (care, want) values of a pattern: their bounds, and their bits (R124). -/
theorem careValue_testBit (ps : List PatBit) : (careValue ps < 2 ^ ps.length ∧ wantValue ps < 2 ^ ps.length) ∧ ∀ i, (careValue ps).testBit i =
    (if h : i < ps.length then (ps[ps.length - 1 - i] != PatBit.x) else false) ∧
    (wantValue ps).testBit i =
    (if h : i < ps.length then (ps[ps.length - 1 - i] == PatBit.b1) else false) := by
  induction ps with
  | nil => simp [careValue, wantValue]
  | cons p ps ih =>
    obtain ⟨⟨hc, hw⟩, ih⟩ := ih
    refine ⟨?_, fun i => ?_⟩
    · simp only [careValue, wantValue, List.length_cons, pow_succ]; cases p <;> simp <;> omega
    · have e1 : careValue (p :: ps) = 2 ^ ps.length * (if p = .x then 0 else 1) + careValue ps := by
        simp only [careValue]; split <;> simp
      have e2 : wantValue (p :: ps) = 2 ^ ps.length * (if p = .b1 then 1 else 0) + wantValue ps := by
        simp only [wantValue]; split <;> simp
      rw [e1, e2, Nat.testBit_two_pow_mul_add _ hc, Nat.testBit_two_pow_mul_add _ hw]
      by_cases h : i < ps.length
      · have h2 : i < (p :: ps).length := by simp; omega
        have e : (p :: ps)[(p :: ps).length - 1 - i] = ps[ps.length - 1 - i] := by
          rw [List.getElem_cons]
          have : ¬ ((p :: ps).length - 1 - i = 0) := by simp; omega
          simp only [this, dite_false]
          congr 1; simp; omega
        simp only [h, h2, if_true, dif_pos, ih, e, and_self]
      · by_cases h3 : i = ps.length
        · subst h3; cases p <;> simp
        · have h2 : ¬ i < (p :: ps).length := by simp; omega
          simp only [h, h2, if_false, dif_neg, not_false_eq_true]
          have : i - ps.length ≠ 0 := by omega
          have : (1:Nat).testBit (i - ps.length) = false := by
            rw [Nat.testBit_eq_false_of_lt]; exact Nat.one_lt_two_pow (by omega)
          cases p <;> simp [this]

theorem wantValue_replicate_b0 (n : Nat) : wantValue (List.replicate n PatBit.b0) = 0 := by
  induction n with
  | zero => rfl
  | succ n ih => simp [List.replicate_succ, wantValue, ih]

end Sys2Proof
end

