-- ==== Sys2Proof/Laws/Layout.lean ====
section
/-! SUPPORT. The descriptor of a name component by component, the packed operand sum of each format, the constants' patterns,
and what each validation step of the Encoder answers. -/

namespace Sys2Proof

/-! ## Components of a descriptor -/

@[simp] theorem descriptor_name (c : Config) (n : InstrName) : (descriptor c n).name = n := rfl
@[simp] theorem descriptor_mnemonic (c : Config) (n : InstrName) : (descriptor c n).mnemonic = n.mnemonic := rfl
@[simp] theorem descriptor_fields (c : Config) (n : InstrName) : (descriptor c n).fields = n.format.fields := rfl
@[simp] theorem descriptor_operandMap (c : Config) (n : InstrName) : (descriptor c n).operandMap = n.format.operandMap := rfl
@[simp] theorem descriptor_immPolicy (c : Config) (n : InstrName) : (descriptor c n).immPolicy = c.immPolicy n := rfl
theorem descriptor_slotTypes (c : Config) (n : InstrName) :
    (descriptor c n).slotTypes = n.format.operandMap.map (fun kf => (kf.1, kf.2.slotType)) := rfl
theorem descriptor_patterns (c : Config) (n : InstrName) :
    (descriptor c n).patterns = patternSet c.fillerPolicy n.format.fields n.opcode (n.funct c) := rfl

/-! ## The operand sum of R145, per format

Proved by rewriting: reducing a sum with factors such as `2 ^ 21` by definitional unfolding makes the kernel count. -/

/-- The sum in R145's closed form, over a format's operand map. -/
def Format.operandSum (fmt : Format) (ops : OperandList) : Nat :=
  (fmt.operandMap.map (fun kf => (ops.get kf.1).value * 2 ^ kf.2.field.lowBit)).sum

theorem Format.operandSum_r3 (ops : OperandList) : Format.operandSum .r3 ops =
    ops.op1.value * 2 ^ 11 + (ops.op2.value * 2 ^ 21 + (ops.op3.value * 2 ^ 16 + 0)) := by
  rw [Format.operandSum]
  show List.sum [ops.op1.value * 2 ^ 11, ops.op2.value * 2 ^ 21, ops.op3.value * 2 ^ 16] = _
  rw [List.sum_cons, List.sum_cons, List.sum_cons, List.sum_nil]

theorem Format.operandSum_r2 (ops : OperandList) : Format.operandSum .r2 ops =
    ops.op1.value * 2 ^ 21 + (ops.op2.value * 2 ^ 16 + 0) := by
  rw [Format.operandSum]
  show List.sum [ops.op1.value * 2 ^ 21, ops.op2.value * 2 ^ 16] = _
  rw [List.sum_cons, List.sum_cons, List.sum_nil]

theorem Format.operandSum_r1 (ops : OperandList) : Format.operandSum .r1 ops =
    ops.op1.value * 2 ^ 11 + 0 := by
  rw [Format.operandSum]
  show List.sum [ops.op1.value * 2 ^ 11] = _
  rw [List.sum_cons, List.sum_nil]

theorem Format.operandSum_i (ops : OperandList) : Format.operandSum .i ops =
    ops.op1.value * 2 ^ 16 + (ops.op2.value * 2 ^ 21 + (ops.op3.value * 2 ^ 0 + 0)) := by
  rw [Format.operandSum]
  show List.sum [ops.op1.value * 2 ^ 16, ops.op2.value * 2 ^ 21, ops.op3.value * 2 ^ 0] = _
  rw [List.sum_cons, List.sum_cons, List.sum_cons, List.sum_nil]

theorem Format.operandSum_lui (ops : OperandList) : Format.operandSum .lui ops =
    ops.op1.value * 2 ^ 16 + (ops.op2.value * 2 ^ 0 + 0) := by
  rw [Format.operandSum]
  show List.sum [ops.op1.value * 2 ^ 16, ops.op2.value * 2 ^ 0] = _
  rw [List.sum_cons, List.sum_cons, List.sum_nil]

theorem Format.operandSum_br (ops : OperandList) : Format.operandSum .br ops =
    ops.op1.value * 2 ^ 21 + (ops.op2.value * 2 ^ 16 + (ops.op3.value * 2 ^ 0 + 0)) := by
  rw [Format.operandSum]
  show List.sum [ops.op1.value * 2 ^ 21, ops.op2.value * 2 ^ 16, ops.op3.value * 2 ^ 0] = _
  rw [List.sum_cons, List.sum_cons, List.sum_cons, List.sum_nil]

theorem Format.operandSum_ls (ops : OperandList) : Format.operandSum .ls ops =
    ops.op1.value * 2 ^ 16 + (ops.op2.value * 2 ^ 0 + (ops.op3.value * 2 ^ 21 + 0)) := by
  rw [Format.operandSum]
  show List.sum [ops.op1.value * 2 ^ 16, ops.op2.value * 2 ^ 0, ops.op3.value * 2 ^ 21] = _
  rw [List.sum_cons, List.sum_cons, List.sum_cons, List.sum_nil]

/-! ## The constants' patterns -/

theorem opcodePattern_care : ∀ v : BitVec 6, (opcodeLiteral v).toPattern.care = 0xFC000000#32 := by decide
theorem functPattern_care : ∀ v : BitVec 6, (functLiteral v).toPattern.care = 0x0000003F#32 := by decide
theorem opcodePattern_want (v : BitVec 6) : (opcodeLiteral v).toPattern.want = BitVec.ofNat 32 (v.toNat * 2 ^ opcodeField.lowBit) := by
  revert v; decide
theorem functPattern_want (v : BitVec 6) : (functLiteral v).toPattern.want = BitVec.ofNat 32 (v.toNat * 2 ^ functField.lowBit) := by
  revert v; decide
theorem zeroPattern_want (f : BitField) : (zeroPattern f).want = 0 := by
  simp [FieldPattern.want, zeroPattern, wantValue_replicate_b0]

/-! ## The validation steps -/

/-- A slot raises no type error iff its operand has the type (R142). -/
theorem slotError_eq_none (t : SlotType) (o : Operand) : slotError t o = none ↔ o.hasType t = true := by
  cases t <;> cases o <;> simp [slotError, Operand.hasType]

/-- Step 2 passes iff every declared position holds an operand of its type (R142). -/
theorem Descriptor.typeError_eq_none (d : Descriptor) (ops : OperandList) :
    d.typeError ops = none ↔ ∀ kt ∈ d.slotTypes, (ops.get kt.1).hasType kt.2 = true := by
  simp [Descriptor.typeError, List.findSome?_eq_none_iff, slotError_eq_none]

/-- Step 3 fails iff a declared register exceeds 31 (R143). -/
theorem Descriptor.regOutOfRange_iff (d : Descriptor) (ops : OperandList) : d.regOutOfRange ops = true ↔ ∃ k, (k, SlotType.register) ∈ d.slotTypes ∧ (ops.get k).value > 31 := by
  simp only [Descriptor.regOutOfRange, List.any_eq_true, Bool.and_eq_true, beq_iff_eq, decide_eq_true_eq, regMax]
  constructor
  · rintro ⟨⟨k, t⟩, h1, h2, h3⟩; simp only at h2; subst h2; exact ⟨k, h1, h3⟩
  · rintro ⟨k, h1, h2⟩; exact ⟨_, h1, rfl, h2⟩

/-- Step 4 fails iff a declared immediate exceeds its policy's maximum (R144). -/
theorem Descriptor.immOutOfRange_iff (d : Descriptor) (ops : OperandList) : d.immOutOfRange ops = true ↔ ∃ k, (k, SlotType.immediate) ∈ d.slotTypes ∧ (ops.get k).value > d.immPolicy.max := by
  simp only [Descriptor.immOutOfRange, List.any_eq_true, Bool.and_eq_true, beq_iff_eq, decide_eq_true_eq]
  constructor
  · rintro ⟨⟨k, t⟩, h1, h2, h3⟩; simp only at h2; subst h2; exact ⟨k, h1, h3⟩
  · rintro ⟨k, h1, h2⟩; exact ⟨_, h1, rfl, h2⟩

/-- A request is valid iff it passes steps 2, 3 and 4 (41_encoder_decoder.md section 3). -/
theorem Descriptor.validOperands_iff (d : Descriptor) (ops : OperandList) : d.validOperands ops = true ↔ d.typeError ops = none ∧ d.regOutOfRange ops = false ∧ d.immOutOfRange ops = false := by
  rw [Descriptor.typeError_eq_none, ← Bool.not_eq_true, Descriptor.regOutOfRange_iff, ← Bool.not_eq_true, Descriptor.immOutOfRange_iff]
  simp only [Descriptor.validOperands, List.all_eq_true]
  push Not
  constructor
  · intro h
    refine ⟨fun kt hkt => ?_, fun k hk => ?_, fun k hk => ?_⟩
    · have := h kt hkt; revert this; cases kt.2 <;> cases ops.get kt.1 <;> simp [Operand.validFor, Operand.hasType]
    · have := h _ hk; revert this; cases ops.get k <;> simp [Operand.validFor, Operand.value, regMax]
    · have := h _ hk; revert this; cases ops.get k <;> simp [Operand.validFor, Operand.value]
  · rintro ⟨h1, h2, h3⟩ ⟨k, t⟩ hkt
    have := h1 _ hkt
    cases t
    · have h2 := h2 k hkt; revert this h2; cases ho : ops.get k <;> simp [Operand.validFor, Operand.hasType, Operand.value, regMax]
    · have h3 := h3 k hkt; revert this h3; cases ho : ops.get k <;> simp [Operand.validFor, Operand.hasType, Operand.value]

end Sys2Proof
end

