-- ==== Sys2Proof/Laws/Table.lean ====
section
/-! SUPPORT. What a well-formed configuration gives, and searching the Descriptor Table. -/

namespace Sys2Proof

/-- The configuration of this hardware is well formed. -/
theorem hardware_wf : hardware.wf = true := by decide

/-- The ports of this hardware are wide enough. -/
theorem hardware_portsWf : hardware.portsWf = true := by decide

theorem Config.wf_functs {c : Config} (h : c.wf = true) : c.functs.Nodup := by
  simp only [Config.wf, Bool.and_eq_true, decide_eq_true_eq] at h; exact h.1.1

theorem Config.wf_mem {c : Config} (h : c.wf = true) (n : InstrName) : n ∈ c.tableOrder := by
  simp only [Config.wf, Bool.and_eq_true, decide_eq_true_eq, List.all_eq_true] at h
  exact h.2 n (by cases n <;> decide)

/-- The table of a well-formed configuration holds exactly the 16 descriptors. -/
theorem mem_table_iff {c : Config} (h : c.wf = true) (d : Descriptor) : d ∈ table c ↔ ∃ n, d = descriptor c n := by
  simp only [table, List.mem_map]
  constructor
  · rintro ⟨n, _, rfl⟩; exact ⟨n, rfl⟩
  · rintro ⟨n, rfl⟩; exact ⟨n, Config.wf_mem h n, rfl⟩

/-- Searching the table for a property that one name alone has finds that name's descriptor, in whatever order it stands. -/
theorem table_find (c : Config) (p : Descriptor → Bool) (n : InstrName) (hn : n ∈ c.tableOrder)
    (hp : p (descriptor c n) = true) (hu : ∀ m, p (descriptor c m) = true → m = n) :
    (table c).find? p = some (descriptor c n) := by
  simp only [table]
  generalize c.tableOrder = l at *
  induction l with
  | nil => simp at hn
  | cons a l ih =>
    simp only [List.map_cons, List.find?_cons]
    by_cases ha : p (descriptor c a) = true
    · rw [hu a ha] at *; simp [hp]
    · simp only [ha]
      rcases List.mem_cons.mp hn with h | h
      · subst h; exact absurd hp ha
      · exact ih h

/-- A word that no descriptor accepts is dispatched to none. -/
theorem dispatch_eq_none {c : Config} (w : Word) (hm : ∀ n, (descriptor c n).matchesWord w = false) : dispatch c w = none := by
  simp only [dispatch, List.find?_eq_none, table, List.mem_map]
  rintro d ⟨n, -, rfl⟩; simp [hm n]

/-- What a lookup finds is the descriptor of the name with that mnemonic. -/
theorem lookup_eq_some (c : Config) (m : Mnemonic) (d : Descriptor) (h : lookup c m = some d) : ∃ n, d = descriptor c n ∧ m = n.mnemonic := by
  have h1 := List.find?_some h
  have h2 := List.mem_of_find?_eq_some h
  simp only [table, List.mem_map] at h2
  obtain ⟨n, -, rfl⟩ := h2
  exact ⟨n, rfl, by simp [descriptor] at h1; exact h1.symm⟩

end Sys2Proof
end

