-- ==== Sys2Proof/Laws/PerInstr.lean ====
section
/-! SUPPORT. Facts about every instruction as syntax, one lemma per constructor (LAWS.json). -/

namespace Sys2Proof

/-- A 5-bit register number is within range. -/
theorem regNum_le (r : RegNum) : r.toNat ≤ regMax := by
  have := r.isLt
  show r.toNat ≤ 31
  omega

/-- A 16-bit immediate is within the range of policy U16 (30_encoding.md R87). -/
theorem imm16_le (i : Imm16) : i.toNat ≤ ImmPolicy.u16.max := by
  have := i.isLt
  show i.toNat ≤ 65535
  omega

@[simp] theorem validFor_register (p : ImmPolicy) (r : RegNum) :
    Operand.validFor p .register (.register r.toNat) = true := decide_eq_true (regNum_le r)

@[simp] theorem validFor_immediate (i : Imm16) :
    Operand.validFor .u16 .immediate (.immediate i.toNat) = true := decide_eq_true (imm16_le i)

namespace Laws

/-! ## Every instruction is well formed on this hardware, whose policies are all U16 -/

/-- The instruction is well formed under this hardware's configuration. -/
def HardwareWellFormed.Statement (i : Instr) : Prop := i.wf hardware = true

theorem HardwareWellFormed.add (rd : RegNum) (rs : RegNum) (rt : RegNum) : HardwareWellFormed.Statement (.add rd rs rt) := rfl
theorem HardwareWellFormed.and (rd : RegNum) (rs : RegNum) (rt : RegNum) : HardwareWellFormed.Statement (.and rd rs rt) := rfl
theorem HardwareWellFormed.or (rd : RegNum) (rs : RegNum) (rt : RegNum) : HardwareWellFormed.Statement (.or rd rs rt) := rfl
theorem HardwareWellFormed.sub (rd : RegNum) (rs : RegNum) (rt : RegNum) : HardwareWellFormed.Statement (.sub rd rs rt) := rfl
theorem HardwareWellFormed.slt (rd : RegNum) (rs : RegNum) (rt : RegNum) : HardwareWellFormed.Statement (.slt rd rs rt) := rfl
theorem HardwareWellFormed.div (rs : RegNum) (rt : RegNum) : HardwareWellFormed.Statement (.div rs rt) := rfl
theorem HardwareWellFormed.mult (rs : RegNum) (rt : RegNum) : HardwareWellFormed.Statement (.mult rs rt) := rfl
theorem HardwareWellFormed.mfhi (rd : RegNum) : HardwareWellFormed.Statement (.mfhi rd) := rfl
theorem HardwareWellFormed.mflo (rd : RegNum) : HardwareWellFormed.Statement (.mflo rd) := rfl
theorem HardwareWellFormed.addi (rt : RegNum) (rs : RegNum) (imm : Imm16) : HardwareWellFormed.Statement (.addi rt rs imm) := decide_eq_true (imm16_le imm)
theorem HardwareWellFormed.slti (rt : RegNum) (rs : RegNum) (imm : Imm16) : HardwareWellFormed.Statement (.slti rt rs imm) := decide_eq_true (imm16_le imm)
theorem HardwareWellFormed.lui (rt : RegNum) (imm : Imm16) : HardwareWellFormed.Statement (.lui rt imm) := decide_eq_true (imm16_le imm)
theorem HardwareWellFormed.beq (rs : RegNum) (rt : RegNum) (off : Imm16) : HardwareWellFormed.Statement (.beq rs rt off) := decide_eq_true (imm16_le off)
theorem HardwareWellFormed.bne (rs : RegNum) (rt : RegNum) (off : Imm16) : HardwareWellFormed.Statement (.bne rs rt off) := decide_eq_true (imm16_le off)
theorem HardwareWellFormed.lw (rt : RegNum) (off : Imm16) (rs : RegNum) : HardwareWellFormed.Statement (.lw rt off rs) := decide_eq_true (imm16_le off)
theorem HardwareWellFormed.sw (rt : RegNum) (off : Imm16) (rs : RegNum) : HardwareWellFormed.Statement (.sw rt off rs) := decide_eq_true (imm16_le off)

/-! ## The operand list of every instruction is a valid request for its descriptor -/

/-- The instruction's operand list passes the Encoder's validation under this hardware's configuration. -/
def OperandsValid.Statement (i : Instr) : Prop := (descriptor hardware i.name).validOperands i.operands = true

theorem OperandsValid.add (rd : RegNum) (rs : RegNum) (rt : RegNum) : OperandsValid.Statement (.add rd rs rt) := by
  simp [OperandsValid.Statement, Descriptor.validOperands, descriptor_slotTypes, Instr.name, InstrName.format, Format.operandMap,
    OperandField.slotType, OperandList.get, Instr.operands, Machine.formR3, hardware]
theorem OperandsValid.and (rd : RegNum) (rs : RegNum) (rt : RegNum) : OperandsValid.Statement (.and rd rs rt) := by
  simp [OperandsValid.Statement, Descriptor.validOperands, descriptor_slotTypes, Instr.name, InstrName.format, Format.operandMap,
    OperandField.slotType, OperandList.get, Instr.operands, Machine.formR3, hardware]
theorem OperandsValid.or (rd : RegNum) (rs : RegNum) (rt : RegNum) : OperandsValid.Statement (.or rd rs rt) := by
  simp [OperandsValid.Statement, Descriptor.validOperands, descriptor_slotTypes, Instr.name, InstrName.format, Format.operandMap,
    OperandField.slotType, OperandList.get, Instr.operands, Machine.formR3, hardware]
theorem OperandsValid.sub (rd : RegNum) (rs : RegNum) (rt : RegNum) : OperandsValid.Statement (.sub rd rs rt) := by
  simp [OperandsValid.Statement, Descriptor.validOperands, descriptor_slotTypes, Instr.name, InstrName.format, Format.operandMap,
    OperandField.slotType, OperandList.get, Instr.operands, Machine.formR3, hardware]
theorem OperandsValid.slt (rd : RegNum) (rs : RegNum) (rt : RegNum) : OperandsValid.Statement (.slt rd rs rt) := by
  simp [OperandsValid.Statement, Descriptor.validOperands, descriptor_slotTypes, Instr.name, InstrName.format, Format.operandMap,
    OperandField.slotType, OperandList.get, Instr.operands, Machine.formR3, hardware]
theorem OperandsValid.div (rs : RegNum) (rt : RegNum) : OperandsValid.Statement (.div rs rt) := by
  simp [OperandsValid.Statement, Descriptor.validOperands, descriptor_slotTypes, Instr.name, InstrName.format, Format.operandMap,
    OperandField.slotType, OperandList.get, Instr.operands, Machine.formR2, hardware]
theorem OperandsValid.mult (rs : RegNum) (rt : RegNum) : OperandsValid.Statement (.mult rs rt) := by
  simp [OperandsValid.Statement, Descriptor.validOperands, descriptor_slotTypes, Instr.name, InstrName.format, Format.operandMap,
    OperandField.slotType, OperandList.get, Instr.operands, Machine.formR2, hardware]
theorem OperandsValid.mfhi (rd : RegNum) : OperandsValid.Statement (.mfhi rd) := by
  simp [OperandsValid.Statement, Descriptor.validOperands, descriptor_slotTypes, Instr.name, InstrName.format, Format.operandMap,
    OperandField.slotType, OperandList.get, Instr.operands, Machine.formR1, hardware]
theorem OperandsValid.mflo (rd : RegNum) : OperandsValid.Statement (.mflo rd) := by
  simp [OperandsValid.Statement, Descriptor.validOperands, descriptor_slotTypes, Instr.name, InstrName.format, Format.operandMap,
    OperandField.slotType, OperandList.get, Instr.operands, Machine.formR1, hardware]
theorem OperandsValid.addi (rt : RegNum) (rs : RegNum) (imm : Imm16) : OperandsValid.Statement (.addi rt rs imm) := by
  simp [OperandsValid.Statement, Descriptor.validOperands, descriptor_slotTypes, Instr.name, InstrName.format, Format.operandMap,
    OperandField.slotType, OperandList.get, Instr.operands, Machine.formI, hardware]
theorem OperandsValid.slti (rt : RegNum) (rs : RegNum) (imm : Imm16) : OperandsValid.Statement (.slti rt rs imm) := by
  simp [OperandsValid.Statement, Descriptor.validOperands, descriptor_slotTypes, Instr.name, InstrName.format, Format.operandMap,
    OperandField.slotType, OperandList.get, Instr.operands, Machine.formI, hardware]
theorem OperandsValid.lui (rt : RegNum) (imm : Imm16) : OperandsValid.Statement (.lui rt imm) := by
  simp [OperandsValid.Statement, Descriptor.validOperands, descriptor_slotTypes, Instr.name, InstrName.format, Format.operandMap,
    OperandField.slotType, OperandList.get, Instr.operands, Machine.formLui, hardware]
theorem OperandsValid.beq (rs : RegNum) (rt : RegNum) (off : Imm16) : OperandsValid.Statement (.beq rs rt off) := by
  simp [OperandsValid.Statement, Descriptor.validOperands, descriptor_slotTypes, Instr.name, InstrName.format, Format.operandMap,
    OperandField.slotType, OperandList.get, Instr.operands, Machine.formBr, hardware]
theorem OperandsValid.bne (rs : RegNum) (rt : RegNum) (off : Imm16) : OperandsValid.Statement (.bne rs rt off) := by
  simp [OperandsValid.Statement, Descriptor.validOperands, descriptor_slotTypes, Instr.name, InstrName.format, Format.operandMap,
    OperandField.slotType, OperandList.get, Instr.operands, Machine.formBr, hardware]
theorem OperandsValid.lw (rt : RegNum) (off : Imm16) (rs : RegNum) : OperandsValid.Statement (.lw rt off rs) := by
  simp [OperandsValid.Statement, Descriptor.validOperands, descriptor_slotTypes, Instr.name, InstrName.format, Format.operandMap,
    OperandField.slotType, OperandList.get, Instr.operands, Machine.formLs, hardware]
theorem OperandsValid.sw (rt : RegNum) (off : Imm16) (rs : RegNum) : OperandsValid.Statement (.sw rt off rs) := by
  simp [OperandsValid.Statement, Descriptor.validOperands, descriptor_slotTypes, Instr.name, InstrName.format, Format.operandMap,
    OperandField.slotType, OperandList.get, Instr.operands, Machine.formLs, hardware]

end Laws

end Sys2Proof
end

