-- ==== Sys2Proof/Laws/State.lean ====
section
/-! SUPPORT. One lemma per signal group per update of the state, so that no later proof unfolds a record update. There is no
memory, so there are no memory lemmas (20_memory.md R50). -/

namespace Sys2Proof.Machine

@[simp] theorem State.withEncIn_encIn (s : State) (x : EncInputs hardware) : (s.withEncIn x).encIn = x := rfl
@[simp] theorem State.withEncIn_encOut (s : State) (x : EncInputs hardware) : (s.withEncIn x).encOut = s.encOut := rfl
@[simp] theorem State.withEncIn_decIn (s : State) (x : EncInputs hardware) : (s.withEncIn x).decIn = s.decIn := rfl
@[simp] theorem State.withEncIn_decOut (s : State) (x : EncInputs hardware) : (s.withEncIn x).decOut = s.decOut := rfl

@[simp] theorem State.withDecIn_encIn (s : State) (x : DecInputs) : (s.withDecIn x).encIn = s.encIn := rfl
@[simp] theorem State.withDecIn_encOut (s : State) (x : DecInputs) : (s.withDecIn x).encOut = s.encOut := rfl
@[simp] theorem State.withDecIn_decIn (s : State) (x : DecInputs) : (s.withDecIn x).decIn = x := rfl
@[simp] theorem State.withDecIn_decOut (s : State) (x : DecInputs) : (s.withDecIn x).decOut = s.decOut := rfl

@[simp] theorem State.withEncOut_encIn (s : State) (x : EncOutputs hardware) : (s.withEncOut x).encIn = s.encIn := rfl
@[simp] theorem State.withEncOut_encOut (s : State) (x : EncOutputs hardware) : (s.withEncOut x).encOut = x := rfl
@[simp] theorem State.withEncOut_decIn (s : State) (x : EncOutputs hardware) : (s.withEncOut x).decIn = s.decIn := rfl
@[simp] theorem State.withEncOut_decOut (s : State) (x : EncOutputs hardware) : (s.withEncOut x).decOut = s.decOut := rfl

@[simp] theorem State.withDecOut_encIn (s : State) (x : DecOutputs hardware) : (s.withDecOut x).encIn = s.encIn := rfl
@[simp] theorem State.withDecOut_encOut (s : State) (x : DecOutputs hardware) : (s.withDecOut x).encOut = s.encOut := rfl
@[simp] theorem State.withDecOut_decIn (s : State) (x : DecOutputs hardware) : (s.withDecOut x).decIn = s.decIn := rfl
@[simp] theorem State.withDecOut_decOut (s : State) (x : DecOutputs hardware) : (s.withDecOut x).decOut = x := rfl

/-! ## The shared operations, signal by signal -/

@[simp] theorem serveEncoder_encIn (s : State) : (serveEncoder s).encIn = s.encIn := rfl
@[simp] theorem serveEncoder_encOut (s : State) : (serveEncoder s).encOut = s.encIn.response := rfl
@[simp] theorem serveEncoder_decIn (s : State) : (serveEncoder s).decIn = s.decIn := rfl
@[simp] theorem serveEncoder_decOut (s : State) : (serveEncoder s).decOut = s.decOut := rfl

@[simp] theorem deliver_encIn (n : InstrName) (ops : OperandList) (s : State) : (deliver n ops s).encIn = s.encIn := rfl
@[simp] theorem deliver_encOut (n : InstrName) (ops : OperandList) (s : State) : (deliver n ops s).encOut = s.encOut := rfl
@[simp] theorem deliver_decIn (n : InstrName) (ops : OperandList) (s : State) : (deliver n ops s).decIn = s.decIn := rfl
@[simp] theorem deliver_decOut (n : InstrName) (ops : OperandList) (s : State) : (deliver n ops s).decOut = .complete n.mnemonic ops := rfl

@[simp] theorem failDecode_encIn (o : Outcome) (s : State) : (failDecode o s).encIn = s.encIn := rfl
@[simp] theorem failDecode_encOut (o : Outcome) (s : State) : (failDecode o s).encOut = s.encOut := rfl
@[simp] theorem failDecode_decIn (o : Outcome) (s : State) : (failDecode o s).decIn = s.decIn := rfl
@[simp] theorem failDecode_decOut (o : Outcome) (s : State) : (failDecode o s).decOut = .only o := rfl

@[simp] theorem idleDecode_encIn (s : State) : (idleDecode s).encIn = s.encIn := rfl
@[simp] theorem idleDecode_encOut (s : State) : (idleDecode s).encOut = s.encOut := rfl
@[simp] theorem idleDecode_decIn (s : State) : (idleDecode s).decIn = s.decIn := rfl
@[simp] theorem idleDecode_decOut (s : State) : (idleDecode s).decOut = .only .noError := rfl

/-! ## What the outputs of a result are, field by field -/

@[simp] theorem EncOutputs.only_outcome {c : Config} (o : Outcome) : (EncOutputs.only (c := c) o).outcome = o.code := rfl
@[simp] theorem EncOutputs.only_word {c : Config} (o : Outcome) : (EncOutputs.only (c := c) o).word = 0 := rfl
@[simp] theorem DecOutputs.only_outcome {c : Config} (o : Outcome) : (DecOutputs.only (c := c) o).outcome = o.code := rfl
@[simp] theorem DecOutputs.only_mnemonic {c : Config} (o : Outcome) : (DecOutputs.only (c := c) o).mnemonic = 0 := rfl
@[simp] theorem DecOutputs.complete_outcome {c : Config} (m : Mnemonic) (ops : OperandList) :
    (DecOutputs.complete (c := c) m ops).outcome = Outcome.completeDecode.code := rfl
@[simp] theorem DecOutputs.complete_mnemonic {c : Config} (m : Mnemonic) (ops : OperandList) :
    (DecOutputs.complete (c := c) m ops).mnemonic = mnemonicPort m := rfl

end Sys2Proof.Machine
end

