-- ==== Sys2Proof/Laws/Ports.lean ====
section
/-! SUPPORT. Port values of operands and mnemonics at every configured width, and what `exec`, `serveDecoder` and `withFetchWord` do, each said once. -/

namespace Sys2Proof.Machine

/-- A register number at a port (10_state.md R37). -/
theorem operandPort_register {c : Config} (n : RegNum) :
    operandPort (c := c) (.register n.toNat) = ⟨0b01#2, n.setWidth c.opvalW⟩ := by
  simp only [operandPort]; congr 1; apply BitVec.eq_of_toNat_eq; simp

/-- An immediate at a port, zero-extended (R37). -/
theorem operandPort_immediate {c : Config} (n : Imm16) :
    operandPort (c := c) (.immediate n.toNat) = ⟨0b10#2, n.setWidth c.opvalW⟩ := by
  simp only [operandPort]; congr 1; apply BitVec.eq_of_toNat_eq; simp

@[simp] theorem operandPort_empty {c : Config} : operandPort (c := c) .empty = .idle := rfl

/-! ## Mnemonics as bytes -/

/-- The bytes of a port value are below its range. -/
theorem bytesValue_lt (bs : List Byte) : bytesValue bs < 2 ^ (8 * bs.length) := by
  induction bs with
  | nil => exact Nat.one_pos
  | cons b bs ih =>
    have hb : b.toNat < 2 ^ 8 := b.isLt
    rw [bytesValue, List.length_cons, Nat.mul_succ, Nat.pow_add, Nat.mul_comm (2 ^ (8 * bs.length))]
    calc b.toNat * 2 ^ (8 * bs.length) + bytesValue bs
        < b.toNat * 2 ^ (8 * bs.length) + 2 ^ (8 * bs.length) := Nat.add_lt_add_left ih _
      _ = (b.toNat + 1) * 2 ^ (8 * bs.length) := (Nat.succ_mul _ _).symm
      _ ≤ 2 ^ 8 * 2 ^ (8 * bs.length) := Nat.mul_le_mul_right _ hb

/-- Byte `i` of the number that bytes stand for is byte `i`. -/
theorem bytesValue_byte (bs : List Byte) : ∀ (i : Nat) (hi : i < bs.length),
    bytesValue bs / 2 ^ (8 * (bs.length - 1 - i)) % 2 ^ 8 = bs[i].toNat := by
  induction bs with
  | nil => intro i hi; simp at hi
  | cons b bs ih =>
    intro i hi
    have hp : 0 < 2 ^ (8 * bs.length) := Nat.two_pow_pos _
    have hlt := bytesValue_lt bs
    cases i with
    | zero =>
      simp only [bytesValue, List.length_cons, Nat.add_sub_cancel, Nat.sub_zero, List.getElem_cons_zero]
      rw [Nat.mul_comm, Nat.mul_add_div hp, Nat.div_eq_of_lt hlt, Nat.add_zero]
      exact Nat.mod_eq_of_lt b.isLt
    | succ i =>
      have hi' : i < bs.length := by simpa using hi
      have e : bs.length = (bs.length - 1 - i) + (i + 1) := by omega
      have e2 : (b :: bs).length - 1 - (i + 1) = bs.length - 1 - i := by simp; omega
      rw [e2, List.getElem_cons_succ, ← ih i hi', bytesValue]
      have e3 : b.toNat * 2 ^ (8 * bs.length) = 2 ^ (8 * (bs.length - 1 - i)) * (2 ^ 8 * (b.toNat * 2 ^ (8 * i))) := by
        have : 8 * bs.length = 8 * (bs.length - 1 - i) + (8 + 8 * i) := by omega
        rw [this, Nat.pow_add, Nat.pow_add]; ring
      rw [e3, Nat.mul_add_div (Nat.two_pow_pos _), Nat.mul_add_mod]

/-- Dropping the padding changes no byte, since past its end a mnemonic reads as `0x00`. -/
theorem byteAt_dropTrailingNul (l : List Byte) : ∀ i, byteAt (dropTrailingNul l) i = byteAt l i := by
  induction l with
  | nil => intro i; rfl
  | cons b bs ih =>
    intro i
    simp only [dropTrailingNul]
    cases h : dropTrailingNul bs with
    | nil =>
      rw [h] at ih
      simp only
      split
      · rename_i hb; subst hb
        cases i with
        | zero => rfl
        | succ i => exact ih i
      · cases i with
        | zero => rfl
        | succ i => exact ih i
    | cons r rs =>
      rw [h] at ih
      cases i with
      | zero => rfl
      | succ i => exact ih i

/-- What is dropped is exactly the padding behind the last non-zero byte. -/
theorem dropTrailingNul_append (l : List Byte) (x : Byte) (hx : x ≠ 0) (k : Nat) :
    dropTrailingNul (l ++ x :: List.replicate k 0) = l ++ [x] := by
  have hz : dropTrailingNul (List.replicate k 0) = [] := by
    induction k with
    | zero => rfl
    | succ k ih => rw [List.replicate_succ, dropTrailingNul, ih]; rfl
  induction l with
  | nil => rw [List.nil_append, dropTrailingNul, hz]; exact if_neg hx
  | cons b bs ih =>
    simp only [List.cons_append, dropTrailingNul, ih]
    cases bs <;> rfl

/-- Byte `i` of a mnemonic's port value is its character `i` (10_state.md R36). -/
theorem portByte_mnemonicPort {c : Config} (m : Mnemonic) (i : Nat) (hi : i < c.mnemBytes) :
    portByte (mnemonicPort (c := c) m) i = byteAt m i := by
  apply BitVec.eq_of_toNat_eq
  have hl : ((List.range c.mnemBytes).map (byteAt m)).length = c.mnemBytes := by simp
  have hv := bytesValue_lt ((List.range c.mnemBytes).map (byteAt m))
  have hb := bytesValue_byte ((List.range c.mnemBytes).map (byteAt m)) i (by simpa using hi)
  rw [hl] at hv
  simp only [List.length_map, List.length_range, List.getElem_map, List.getElem_range] at hb
  simp only [portByte, mnemonicPort, BitVec.extractLsb'_toNat, BitVec.toNat_ofNat, Nat.shiftRight_eq_div_pow]
  rw [Nat.mod_eq_of_lt hv, hb]

/-- A port value is determined by its bytes. -/
theorem mnemPort_ext {c : Config} (p q : c.MnemPort) (h : ∀ i < c.mnemBytes, portByte p i = portByte q i) : p = q := by
  apply BitVec.eq_of_getLsbD_eq
  intro j hj
  have hi : c.mnemBytes - 1 - j / 8 < c.mnemBytes := by omega
  have := congrArg (fun b => b.getLsbD (j % 8)) (h _ hi)
  have e : c.mnemBytes - 1 - (c.mnemBytes - 1 - j / 8) = j / 8 := by omega
  have e2 : 8 * (j / 8) + j % 8 = j := Nat.div_add_mod j 8
  have e3 : j % 8 < 8 := Nat.mod_lt _ (by decide)
  simpa [portByte, BitVec.getLsbD_extractLsb', e, e2, e3] using this

/-! ## `exec` and the step -/

/-- Every instruction's meaning is the delivery of its own name and operand list: it completes in every state. -/
theorem exec_eq_deliver (i : Instr) (s : State) : exec i s = .next (deliver i.name i.operands s) := by cases i <;> rfl

/-- An instruction leaves every signal but the decoder outputs. -/
theorem exec_frame (i : Instr) (s t : State) (h : exec i s = .next t) :
    t.encIn = s.encIn ∧ t.encOut = s.encOut ∧ t.decIn = s.decIn := by
  rw [exec_eq_deliver] at h
  injection h with h
  subst h
  exact ⟨rfl, rfl, rfl⟩

/-- The three ways a transaction of the decoder port ends. -/
theorem serveDecoder_cases (s : State) :
    (s.decIn.valid = false ∧ serveDecoder s = .next (idleDecode s)) ∨
    (∃ i, s.decIn.valid = true ∧ decodeInstr hardware s.decIn.word = .ok i ∧ serveDecoder s = exec i s) ∨
    (∃ o, s.decIn.valid = true ∧ decodeInstr hardware s.decIn.word = .error o ∧ serveDecoder s = .next (failDecode o s)) := by
  unfold serveDecoder
  cases s.decIn.valid with
  | false => exact .inl ⟨rfl, rfl⟩
  | true =>
    cases decodeInstr hardware s.decIn.word with
    | ok i => exact .inr (.inl ⟨i, rfl, rfl, rfl⟩)
    | error o => exact .inr (.inr ⟨o, rfl, rfl, rfl⟩)

@[simp] theorem State.withFetchWord_encIn (s : State) (nbits w : Nat) : (s.withFetchWord nbits w).encIn = s.encIn := rfl
@[simp] theorem State.withFetchWord_encOut (s : State) (nbits w : Nat) : (s.withFetchWord nbits w).encOut = s.encOut := rfl
@[simp] theorem State.withFetchWord_decIn (s : State) (nbits w : Nat) :
    (s.withFetchWord nbits w).decIn = ⟨true, BitVec.ofNat 32 (w % 2 ^ nbits)⟩ := rfl
@[simp] theorem State.withFetchWord_decOut (s : State) (nbits w : Nat) : (s.withFetchWord nbits w).decOut = s.decOut := rfl

end Sys2Proof.Machine
end

