-- ==== Sys2Proof/Tests/Slice0.lean ====
section
/-! SUPPORT. Tests. Expected words and results are the spec's: the bit layouts of 30_encoding.md, the vectors of
95_test_vectors.md, the port encodings of 10_state.md. Then the well-formedness smoke, and for every obligation with
hypotheses a witness that meets them. -/

namespace Sys2Proof.Tests

open Sys2Proof.Machine

/-! ## Decoding, one word per mnemonic, written field by field from 30_encoding.md -/

/-- 95 S1. -/
theorem test_decode_add : decodeTableWord 32 0b000000_01010_01011_01001_00000_100000 = some (.add 9 10 11) := by decide

/-- R181. -/
theorem test_decode_and : decodeTableWord 32 0b000000_11111_00000_00001_00000_100100 = some (.and 1 31 0) := by decide

/-- 95 section 3.1. -/
theorem test_decode_or : decodeTableWord 32 0b000000_10001_10010_10000_00000_100101 = some (.or 16 17 18) := by decide

/-- 95 section 3.1. -/
theorem test_decode_sub : decodeTableWord 32 0b000000_01010_01011_01001_00000_100010 = some (.sub 9 10 11) := by decide

/-- 95 section 3.1. -/
theorem test_decode_slt : decodeTableWord 32 0b000000_00000_11111_00000_00000_101010 = some (.slt 0 0 31) := by decide

/-- 95 section 3.2. -/
theorem test_decode_div : decodeTableWord 32 0b000000_01010_01011_0000000000_011010 = some (.div 10 11) := by decide

/-- 95 section 3.2. -/
theorem test_decode_mult : decodeTableWord 32 0b000000_00100_00101_0000000000_011000 = some (.mult 4 5) := by decide

/-- 95 section 3.3. -/
theorem test_decode_mfhi : decodeTableWord 32 0b000000_00000_00000_01001_00000_010000 = some (.mfhi 9) := by decide

/-- 95 section 3.3. -/
theorem test_decode_mflo : decodeTableWord 32 0b000000_00000_00000_00010_00000_010010 = some (.mflo 2) := by decide

/-- 95 S2. -/
theorem test_decode_addi : decodeTableWord 32 0b001000_01001_01000_0000000000001010 = some (.addi 8 9 10) := by decide

/-- 95 P2. -/
theorem test_decode_slti : decodeTableWord 32 0b001010_01101_01110_0111111111111111 = some (.slti 14 13 0x7FFF) := by decide

/-- 95 section 3.4. -/
theorem test_decode_lui : decodeTableWord 32 0b001111_00000_01000_0001001000110100 = some (.lui 8 0x1234) := by decide

/-- 95 S4. -/
theorem test_decode_beq : decodeTableWord 32 0b000100_10000_10001_0000000000100000 = some (.beq 16 17 0x20) := by decide

/-- 95 P4. -/
theorem test_decode_bne : decodeTableWord 32 0b000101_01000_00000_1111111111111100 = some (.bne 8 0 0xFFFC) := by decide

/-- 95 S3. -/
theorem test_decode_lw : decodeTableWord 32 0b100011_10001_01000_0000000000000100 = some (.lw 8 4 17) := by decide

/-- 95 section 3.6. -/
theorem test_decode_sw : decodeTableWord 32 0b101011_11101_01000_1000000000000000 = some (.sw 8 0x8000 29) := by decide

/-! ## Encoding, one boundary request per mnemonic (95_test_vectors.md section 3) -/

theorem test_encode_add : encode hardware InstrName.add.mnemonic ⟨.register 31, .register 0, .register 0, .empty⟩ = .ok 0x0000F820#32 := by decide
theorem test_encode_and : encode hardware InstrName.and.mnemonic ⟨.register 31, .register 31, .register 31, .empty⟩ = .ok 0x03FFF824#32 := by decide
theorem test_encode_or : encode hardware InstrName.or.mnemonic ⟨.register 9, .register 10, .register 11, .empty⟩ = .ok 0x014B4825#32 := by decide
theorem test_encode_sub : encode hardware InstrName.sub.mnemonic ⟨.register 0, .register 0, .register 0, .empty⟩ = .ok 0x00000022#32 := by decide
theorem test_encode_slt : encode hardware InstrName.slt.mnemonic ⟨.register 9, .register 10, .register 11, .empty⟩ = .ok 0x014B482A#32 := by decide
theorem test_encode_div : encode hardware InstrName.div.mnemonic ⟨.register 31, .register 0, .empty, .empty⟩ = .ok 0x03E0001A#32 := by decide
theorem test_encode_mult : encode hardware InstrName.mult.mnemonic ⟨.register 31, .register 31, .empty, .empty⟩ = .ok 0x03FF0018#32 := by decide
theorem test_encode_mfhi : encode hardware InstrName.mfhi.mnemonic ⟨.register 31, .empty, .empty, .empty⟩ = .ok 0x0000F810#32 := by decide
theorem test_encode_mflo : encode hardware InstrName.mflo.mnemonic ⟨.register 31, .empty, .empty, .empty⟩ = .ok 0x0000F812#32 := by decide
theorem test_encode_addi : encode hardware InstrName.addi.mnemonic ⟨.register 31, .register 0, .immediate 0, .empty⟩ = .ok 0x201F0000#32 := by decide
theorem test_encode_slti : encode hardware InstrName.slti.mnemonic ⟨.register 31, .register 31, .immediate 0xFFFF, .empty⟩ = .ok 0x2BFFFFFF#32 := by decide
theorem test_encode_lui : encode hardware InstrName.lui.mnemonic ⟨.register 31, .immediate 0xFFFF, .empty, .empty⟩ = .ok 0x3C1FFFFF#32 := by decide
theorem test_encode_beq : encode hardware InstrName.beq.mnemonic ⟨.register 31, .register 0, .immediate 0, .empty⟩ = .ok 0x13E00000#32 := by decide
theorem test_encode_bne : encode hardware InstrName.bne.mnemonic ⟨.register 31, .register 31, .immediate 0xFFFF, .empty⟩ = .ok 0x17FFFFFF#32 := by decide
theorem test_encode_lw : encode hardware InstrName.lw.mnemonic ⟨.register 31, .immediate 0, .register 0, .empty⟩ = .ok 0x8C1F0000#32 := by decide
theorem test_encode_sw : encode hardware InstrName.sw.mnemonic ⟨.register 8, .immediate 0x8000, .register 29, .empty⟩ = .ok 0xAFA88000#32 := by decide

/-! ## Rejections (95_test_vectors.md section 4) -/

/-- E1 to E5. -/
theorem test_unknown_mnemonics :
    encode hardware (ascii ['a', 'd', 'd']) ⟨.register 9, .register 10, .register 11, .empty⟩ = .fail .wrongCommand ∧
    encode hardware (ascii ['A', 'D', 'D', 'U']) ⟨.register 9, .register 10, .register 11, .empty⟩ = .fail .wrongCommand ∧
    encode hardware [] ⟨.empty, .empty, .empty, .empty⟩ = .fail .wrongCommand ∧
    encode hardware (ascii ['N', 'O', 'P']) ⟨.empty, .empty, .empty, .empty⟩ = .fail .wrongCommand ∧
    encode hardware (ascii ['X', 'Y', 'Z']) ⟨.register 99, .immediate 0x10000, .empty, .empty⟩ = .fail .wrongCommand := by decide

/-- E7, E9, E20, E24, E26, E28 to E30: the first wrongly typed position decides. -/
theorem test_types_before_ranges :
    encode hardware InstrName.add.mnemonic ⟨.register 9, .register 10, .immediate 0xB, .empty⟩ = .fail .missingReg ∧
    encode hardware InstrName.add.mnemonic ⟨.register 40, .immediate 1, .register 2, .empty⟩ = .fail .missingReg ∧
    encode hardware InstrName.addi.mnemonic ⟨.immediate 1, .empty, .register 2, .empty⟩ = .fail .missingReg ∧
    encode hardware InstrName.lui.mnemonic ⟨.register 8, .register 9, .immediate 1, .empty⟩ = .fail .invalidParam ∧
    encode hardware InstrName.beq.mnemonic ⟨.register 16, .immediate 0x20, .register 17, .empty⟩ = .fail .missingReg ∧
    encode hardware InstrName.lw.mnemonic ⟨.register 8, .register 17, .immediate 4, .empty⟩ = .fail .invalidParam ∧
    encode hardware InstrName.lw.mnemonic ⟨.register 40, .register 1, .register 2, .empty⟩ = .fail .invalidParam ∧
    encode hardware InstrName.lw.mnemonic ⟨.register 8, .immediate 4, .empty, .empty⟩ = .fail .missingReg := by decide

/-- E12, E13, E15, E17, E22, E32, E33. -/
theorem test_registers_before_immediates :
    encode hardware InstrName.add.mnemonic ⟨.register 0, .register 0, .register 32, .empty⟩ = .fail .invalidReg ∧
    encode hardware InstrName.add.mnemonic ⟨.register 4294967295, .register 0, .register 0, .empty⟩ = .fail .invalidReg ∧
    encode hardware InstrName.div.mnemonic ⟨.register 4, .register 32, .empty, .empty⟩ = .fail .invalidReg ∧
    encode hardware InstrName.mflo.mnemonic ⟨.register 32, .empty, .empty, .empty⟩ = .fail .invalidReg ∧
    encode hardware InstrName.addi.mnemonic ⟨.register 1, .register 99, .immediate 0x10000, .empty⟩ = .fail .invalidReg ∧
    encode hardware InstrName.sw.mnemonic ⟨.register 8, .immediate 0x4, .register 32, .empty⟩ = .fail .invalidReg ∧
    encode hardware InstrName.sw.mnemonic ⟨.register 8, .immediate 0x10000, .register 32, .empty⟩ = .fail .invalidReg := by decide

/-- E21, E23, E25, E27, E31. -/
theorem test_immediates_out_of_range :
    encode hardware InstrName.addi.mnemonic ⟨.register 8, .register 9, .immediate 0x10000, .empty⟩ = .fail .invalidImmed ∧
    encode hardware InstrName.addi.mnemonic ⟨.register 8, .register 9, .immediate 0xFFFFFFFF, .empty⟩ = .fail .invalidImmed ∧
    encode hardware InstrName.lui.mnemonic ⟨.register 8, .immediate 0x10000, .empty, .empty⟩ = .fail .invalidImmed ∧
    encode hardware InstrName.bne.mnemonic ⟨.register 16, .register 17, .immediate 0x10000, .empty⟩ = .fail .invalidImmed ∧
    encode hardware InstrName.lw.mnemonic ⟨.register 8, .immediate 0x10000, .register 17, .empty⟩ = .fail .invalidImmed := by decide

/-- Section 4.2: undeclared positions are ignored. -/
theorem test_undeclared_positions :
    encode hardware InstrName.mfhi.mnemonic ⟨.register 9, .register 99, .immediate 7, .register 1⟩ = .ok 0x00004810#32 ∧
    encode hardware InstrName.lui.mnemonic ⟨.register 8, .immediate 0x1234, .register 40, .empty⟩ = .ok 0x3C081234#32 := by
  decide

/-- Section 4.3: words with an unknown opcode or function constant. -/
theorem test_illegal_constants : decode hardware 0x00000000#32 = .fail .wrongCommand ∧
    decode hardware 0xFFFFFFFF#32 = .fail .wrongCommand ∧
    decode hardware 0x08000000#32 = .fail .wrongCommand ∧
    decode hardware 0x014B4821#32 = .fail .wrongCommand := ⟨rfl, rfl, rfl, rfl⟩

/-- Section 4.3: words with a non-zero filler, R3, R2, MULT's bit 6, LUI. -/
theorem test_illegal_fillers : decode hardware 0x014B4860#32 = .fail .wrongCommand ∧
    decode hardware 0x014B481A#32 = .fail .wrongCommand ∧
    decode hardware 0x00850058#32 = .fail .wrongCommand ∧
    decode hardware 0x3D085555#32 = .fail .wrongCommand := ⟨rfl, rfl, rfl, rfl⟩

/-- Section 4.3: each filler of R1. -/
theorem test_illegal_fillers_r1 : decode hardware 0x01004810#32 = .fail .wrongCommand ∧
    decode hardware 0x00094810#32 = .fail .wrongCommand ∧
    decode hardware 0x00004850#32 = .fail .wrongCommand := ⟨rfl, rfl, rfl⟩

/-- 30_encoding.md R98: the example of the lenient policy. -/
theorem test_lenient_filler : decode { hardware with fillerPolicy := .lenient } 0x014B4860#32 =
    .ok InstrName.add.mnemonic ⟨.register 9, .register 10, .register 11, .empty⟩ := by decide

/-! ## Primitives (95_test_vectors.md section 2) -/

theorem test_set_field : setField 0xFFFFFFFF#32 rsField 0 = 0xFC1FFFFF#32 ∧ setField 0xFFFFFFFF#32 immField 0x1234 = 0xFFFF1234#32 ∧
    setField 0#32 zeroField15 0x3FF = 0x0000FFC0#32 := by decide

/-- D14: bits above the field's width are dropped. -/
theorem test_set_field_drops_excess_bits : setField 0#32 rtField 33 = 0x00010000#32 := by decide

theorem test_set_field_literal : setFieldLiteral 0xFFFFFFFF#32 ⟨10, List.replicate 5 .b0, rfl⟩ = 0xFFFFF83F#32 ∧
    setFieldLiteral 0x014B4800#32 (functLiteral 0b100000#6) = 0x014B4820#32 := by decide

theorem test_get_field : getField 0x014B4820#32 rsField = 10 ∧ getField 0xFFFFFFFF#32 immField = 65535 ∧
    getField 0xFFFFFFFF#32 zeroField15 = 1023 := by decide

theorem test_match_field : matchField 0x2128000A#32 ⟨31, [.b0, .b0, .b1, .b0, .x, .x], rfl⟩ = true ∧
    matchField 0x2128000A#32 ⟨31, [.b0, .b0, .b1, .b1, .x, .x], rfl⟩ = false ∧
    matchField 0xDEADBEEF#32 ⟨20, List.replicate 5 .x, rfl⟩ = true := by decide

/-! ## Ports and the step -/

/-- A small state: a request at the encoder port, a word at the decoder port. -/
def presenting (m : hardware.MnemPort) (o1 o2 o3 o4 : OperandPort hardware) (w : Word) : State :=
  (State.reset.withEncIn ⟨true, m, o1, o2, o3, o4⟩).withDecIn ⟨true, w⟩

/-- `ADD 9,10,11` at the encoder port and its word at the decoder port. -/
def addBoth : State := presenting 0x41444400 ⟨1, 9⟩ ⟨1, 10⟩ ⟨1, 11⟩ ⟨0, 0⟩ 0x014B4820#32

/-- `add` in lower case at the encoder port and an illegal word at the decoder port. -/
def wrongBoth : State := presenting 0x61646400 ⟨1, 9⟩ ⟨1, 10⟩ ⟨1, 11⟩ ⟨0, 0⟩ 0x00000000#32

/-- R37, D15: tag `11` is treated as `EMPTY`, and the value beside an `EMPTY` is ignored. -/
theorem test_operand_tags : OperandPort.operand (c := hardware) ⟨0b11#2, 9⟩ = .empty ∧ OperandPort.operand (c := hardware) ⟨0b00#2, 9⟩ = .empty ∧
    OperandPort.operand (c := hardware) ⟨0b10#2, 0xFFFFFFFF⟩ = .immediate 4294967295 := by decide

/-- The ports follow the configured widths: a mnemonic at a six-byte port, an Outcome code of four bits. -/
theorem test_configured_widths :
    mnemonicPort (c := { hardware with mnemBytes := 6 }) InstrName.or.mnemonic = 0x4F5200000000 ∧
    portMnemonic (c := { hardware with mnemBytes := 6 }) 0x414444490000 = InstrName.addi.mnemonic ∧
    Outcome.code (c := { hardware with outcomeW := 4 }) .completeDecode = 0b0111 := by decide

/-- R36: padding is dropped, a space is not. -/
theorem test_mnemonic_port : portMnemonic (c := hardware) 0x4F520000 = InstrName.or.mnemonic ∧
    portMnemonic (c := hardware) 0x4F522020 ≠ InstrName.or.mnemonic ∧ portMnemonic (c := hardware) 0 = [] := by decide

theorem test_step_add : step addBoth = .next { addBoth with
    encOut := ⟨0b110, 0x014B4820#32⟩
    decOut := ⟨0b111, 0x41444400, ⟨1, 9⟩, ⟨1, 10⟩, ⟨1, 11⟩, ⟨0, 0⟩⟩ } := rfl

theorem test_step_wrong : step wrongBoth = .next { wrongBoth with
    encOut := ⟨0b001, 0⟩
    decOut := ⟨0b001, 0, ⟨0, 0⟩, ⟨0, 0⟩, ⟨0, 0⟩, ⟨0, 0⟩⟩ } := rfl

/-- With no request presented a step leaves the idle outputs (R38). -/
theorem test_step_idle : step State.reset = .next State.reset := rfl

theorem test_step_fetch_word : step (State.reset.withFetchWord 32 0x8E280004) = exec (.lw 8 4 17)
    (serveEncoder (State.reset.withFetchWord 32 0x8E280004)) := rfl

/-! ## The well-formedness smoke: for each check, an ill-formed term that the check refuses -/

/-- `Config.wf`: two equal function constants. -/
theorem test_wf_config_functs : ({ hardware with functAnd := 0b100000#6 } : Config).wf = false := by decide

/-- `Config.wf`: a name twice in the order. -/
theorem test_wf_config_order_twice : ({ hardware with tableOrder := .add :: InstrName.all } : Config).wf = false := by decide

/-- `Config.wf`: a name missing from the order. -/
theorem test_wf_config_order_missing : ({ hardware with tableOrder := InstrName.all.tail } : Config).wf = false := by decide

/-- `Config.portsWf`: each port one step too narrow. -/
theorem test_wf_config_ports : ({ hardware with opvalW := 16 } : Config).portsWf = false ∧
    ({ hardware with mnemBytes := 3 } : Config).portsWf = false ∧ ({ hardware with outcomeW := 2 } : Config).portsWf = false := by
  decide

/-- The domain of a field: bit 32, width 0, a field that runs below bit 0. -/
theorem test_wf_field_domain : fieldInDomain 32 1 = false ∧ fieldInDomain 31 0 = false ∧ fieldInDomain 4 6 = false := by decide

/-- `tilesFrom`: a gap, an overlap, a missing last field. -/
theorem test_wf_tiling : tilesFrom 32 [⟨opcodeField, .opcode⟩, ⟨rtField, .filler⟩, ⟨immField, .immediate⟩] = false ∧
    tilesFrom 32 [⟨opcodeField, .opcode⟩, ⟨rsField, .filler⟩, ⟨rsField, .filler⟩, ⟨rtField, .filler⟩, ⟨immField, .immediate⟩] = false ∧
    tilesFrom 32 [⟨opcodeField, .opcode⟩, ⟨rsField, .filler⟩] = false := by decide

/-- `FieldDecl.widthOk`: each role at a wrong width. -/
theorem test_wf_widths : FieldDecl.widthOk ⟨rsField, .opcode⟩ = false ∧ FieldDecl.widthOk ⟨rsField, .funct⟩ = false ∧
    FieldDecl.widthOk ⟨functField, .register .rs⟩ = false ∧ FieldDecl.widthOk ⟨zeroField15, .immediate⟩ = false := by decide

/-- `Descriptor.wf`: bad tiling, a bad width, an operand mapped to an absent field, a position mapped twice, slot types that
are not those of the map. -/
theorem test_wf_descriptor : (descriptor hardware .add).wf = true ∧
    { descriptor hardware .add with fields := [] }.wf = false ∧
    { descriptor hardware .add with fields := [⟨⟨31, 32, rfl⟩, .immediate⟩] }.wf = false ∧
    { descriptor hardware .mfhi with operandMap := [(.p1, .reg .rs)] }.wf = false ∧
    { descriptor hardware .div with operandMap := [(.p1, .reg .rs), (.p1, .reg .rt)]
                                    slotTypes := [(.p1, .register), (.p1, .register)] }.wf = false ∧
    { descriptor hardware .lw with slotTypes := [(.p1, .register), (.p2, .register), (.p3, .immediate)] }.wf = false := by
  decide

/-- `OperandField.declaredIn`: Rd and the immediate in formats that have none. -/
theorem test_wf_declared_in : (OperandField.reg .rd).declaredIn Format.i.fields = false ∧
    OperandField.imm.declaredIn Format.r3.fields = false := by decide

/-- `tableWf`: the table passes; an ill-formed descriptor, a mnemonic twice, two descriptors that do not exclude each other. -/
theorem test_wf_table : tableWf (table hardware) = true ∧
    tableWf [{ descriptor hardware .add with fields := [] }] = false ∧
    tableWf [descriptor hardware .add, { descriptor hardware .or with mnemonic := InstrName.add.mnemonic }] = false ∧
    tableWf [descriptor hardware .add, { descriptor hardware .or with patterns := [] }] = false := by decide

/-- `Operand.hasType` and `Operand.validFor`: wrong types, a register and immediates one past the maximum. -/
theorem test_wf_operands : Operand.hasType .register (.immediate 0) = false ∧ Operand.hasType .immediate .empty = false ∧
    Operand.validFor .u16 .register .empty = false ∧ Operand.validFor .u16 .register (.register 32) = false ∧
    Operand.validFor .u16 .immediate (.immediate 0x10000) = false ∧
    Operand.validFor .s16pos .immediate (.immediate 0x8000) = false := by decide

/-- `Descriptor.validOperands` and `Descriptor.declares`. -/
theorem test_wf_request : (descriptor hardware .add).validOperands ⟨.register 9, .register 10, .empty, .empty⟩ = false ∧
    (descriptor hardware .mfhi).declares .p2 = false := by decide

/-- `Instr.wf`: an offset that policy S16POS refuses. -/
theorem test_wf_instr : (Instr.lw 8 0x8000 29).wf { hardware with immPolicy := fun _ => .s16pos } = false ∧
    encodeInstr { hardware with immPolicy := fun _ => .s16pos } (.lw 8 0x8000 29) = .fail .invalidImmed := by decide

/-! ## Witnesses: for every obligation with hypotheses, values that meet them all, at boundaries where a clause has a range -/

theorem witness_SetFieldLiteralWritesItsCharacters :
    5 < (opcodeLiteral 0b100011#6).bits.length ∧ (opcodeLiteral 0b100011#6).field.lowBit = 26 ∧
    (25 < (opcodeLiteral 0b100011#6).field.lowBit ∧ 25 < 32) ∧ ((functLiteral 0b100000#6).highBit < 6 ∧ 6 < 32) := by decide

theorem witness_MatchFieldComparesEveryNonWildcardBit : ∀ b ∈ List.replicate 5 PatBit.x, b = .x := by decide

theorem witness_ReadAfterWriteGivesTheValue : 31 < 2 ^ rsField.width := by decide

/-- Rs and Rt are adjacent: each clause at its boundary. -/
theorem witness_WritesToDisjointFieldsDoNotInterfere : rtField.highBit < rsField.lowBit ∧ rtField.highBit + 1 = rsField.lowBit := by
  decide

theorem witness_FieldsOfAFormatDetermineTheWord :
    ∀ d ∈ Format.r3.fields, getField 0x014B4820#32 d.field = getField (0x014B4800#32 ||| 0x20#32) d.field := by decide

theorem witness_LiteralWrittenIsMatchedByItselfOnly :
    (functLiteral 0b100000#6).highBit = (functLiteral 0b100100#6).highBit ∧
    (functLiteral 0b100000#6).bits.length = (functLiteral 0b100100#6).bits.length := by decide

theorem witness_NoWordSatisfiesTwoDescriptors : hardware.wf = true ∧ descriptor hardware .add ∈ table hardware ∧
    (descriptor hardware .add).matchesWord 0x014B4820#32 = true := by decide

theorem witness_TableOrderCannotBeObserved : hardware.wf = true ∧
    ({ hardware with tableOrder := InstrName.all.reverse } : Config).wf = true := by decide

theorem witness_LenientPolicyChecksConstantsOnly : ({ hardware with fillerPolicy := .lenient } : Config).fillerPolicy = .lenient ∧
    hardware.wf = true ∧ decode { hardware with fillerPolicy := .strict } 0x014B4820#32 =
      .ok InstrName.add.mnemonic ⟨.register 9, .register 10, .register 11, .empty⟩ := by decide

theorem witness_MnemonicLookupIsExact : hardware.wf = true ∧ ∀ n ∈ InstrName.all, ascii ['a', 'd', 'd'] ≠ n.mnemonic := by decide

/-- A register position first, an immediate position last. -/
theorem witness_FirstWronglyTypedPositionDecides : hardware.wf = true ∧
    (descriptor hardware .add).slotTypes = [] ++ (.p1, .register) :: [(.p2, .register), (.p3, .register)] ∧
    Operand.hasType .register .empty = false ∧
    (descriptor hardware .addi).slotTypes = [(.p1, .register), (.p2, .register)] ++ (.p3, .immediate) :: [] ∧
    (∀ kt ∈ [(Position.p1, SlotType.register), (.p2, .register)],
      ((OperandList.mk (.register 40) (.register 9) (.register 10) .empty).get kt.1).hasType kt.2 = true) ∧
    Operand.hasType .immediate (.register 10) = false := by decide

/-- Each clause: a register at 32, an immediate at 0x10000, both at their maximum. -/
theorem witness_RangesAreCheckedRegistersFirst : hardware.wf = true ∧
    (∀ ops ∈ [OperandList.mk (.register 32) (.register 31) (.immediate 0x10000) .empty,
        ⟨.register 31, .register 31, .immediate 0x10000, .empty⟩, ⟨.register 31, .register 31, .immediate 0xFFFF, .empty⟩],
      ∀ kt ∈ (descriptor hardware .addi).slotTypes, (ops.get kt.1).hasType kt.2 = true) := by decide

theorem witness_PackingIsMatchValueOrOperandSum : hardware.wf = true ∧
    (descriptor hardware .lw).validOperands ⟨.register 31, .immediate 0xFFFF, .register 31, .empty⟩ = true := by decide

theorem witness_UndeclaredPositionsAreNotExamined : ∀ k ∈ [Position.p1, .p2, .p3, .p4], (descriptor hardware .mfhi).declares k = true →
    (OperandList.mk (.register 9) (.register 99) (.immediate 7) (.register 1)).get k =
      (OperandList.mk (.register 9) .empty .empty .empty).get k := by decide

/-- A word that satisfies a descriptor, and one that satisfies none; also for DecodedOperandsStandAtCanonicalPositions. -/
theorem witness_DecodeFollowsTheMatchingDescriptor : hardware.wf = true ∧
    (descriptor hardware .div).matchesWord 0x014B001A#32 = true ∧
    ∀ n ∈ InstrName.all, (descriptor hardware n).matchesWord 0#32 = false := by decide

theorem witness_DecodeAfterEncodeGivesTheRequestBack : hardware.wf = true ∧
    encode hardware InstrName.lui.mnemonic ⟨.register 8, .immediate 0x1234, .register 40, .empty⟩ = .ok 0x3C081234#32 := by decide

theorem witness_EncodeAfterDecodeGivesTheWordBack : hardware.wf = true ∧ hardware.fillerPolicy = .strict ∧
    (∀ n ∈ InstrName.all, hardware.immPolicy n = .u16) ∧
    decode hardware 0xAFA88000#32 = .ok InstrName.sw.mnemonic ⟨.register 8, .immediate 0x8000, .register 29, .empty⟩ := by decide

theorem witness_EncodeIsABijectionOntoLegalWords :
    encode hardware InstrName.mfhi.mnemonic ⟨.register 9, .empty, .empty, .empty⟩ = .ok 0x00004810#32 ∧
    encode hardware InstrName.mfhi.mnemonic ⟨.register 9, .register 99, .empty, .empty⟩ = .ok 0x00004810#32 := by decide

theorem witness_DecodeInstrInvertsEncodeInstr : hardware.wf = true ∧ (Instr.sw 31 0xFFFF 31).wf hardware = true := by decide

theorem witness_EncodeInstrInvertsDecodeInstr : hardware.wf = true ∧ hardware.fillerPolicy = .strict ∧
    (decodeInstr hardware 0x3C1FFFFF#32).toOption = some (.lui 31 0xFFFF) ∧ (Instr.lui 31 0xFFFF).wf hardware = true := by decide

/-- The members of the lists that the statements about families range over. -/
theorem witness_family_lists :
    (InstrName.slt, 0x2A) ∈ [(InstrName.and, 0x24), (InstrName.or, 0x25), (InstrName.sub, 0x22), (InstrName.slt, 0x2A)] ∧
    (InstrName.mult, 0x18) ∈ [(InstrName.div, 0x1A), (InstrName.mult, 0x18)] ∧
    (InstrName.mflo, 0x12) ∈ [(InstrName.mfhi, 0x10), (InstrName.mflo, 0x12)] ∧
    (InstrName.slti, 0x28000000) ∈ [(InstrName.addi, 0x20000000), (InstrName.slti, 0x28000000)] ∧
    (InstrName.bne, 0x14000000) ∈ [(InstrName.beq, 0x10000000), (InstrName.bne, 0x14000000)] ∧
    (InstrName.sw, 0xAC000000) ∈ [(InstrName.lw, 0x8C000000), (InstrName.sw, 0xAC000000)] := by decide

/-- The same for the statements on what running an instruction leaves. -/
theorem witness_deliver_lists :
    (Instr.slt 9 10 11, 0x534C5400#32) ∈ [(Instr.add 9 10 11, 0x41444400#32), (Instr.and 9 10 11, 0x414E4400#32),
      (Instr.or 9 10 11, 0x4F520000#32), (Instr.sub 9 10 11, 0x53554200#32), (Instr.slt 9 10 11, 0x534C5400#32)] ∧
    (Instr.mult 4 5, 0x4D554C54#32) ∈ [(Instr.div 4 5, 0x44495600#32), (Instr.mult 4 5, 0x4D554C54#32)] ∧
    (Instr.mflo 2, 0x4D464C4F#32) ∈ [(Instr.mfhi 2, 0x4D464849#32), (Instr.mflo 2, 0x4D464C4F#32)] ∧
    (Instr.slti 8 9 10, 0x534C5449#32) ∈ [(Instr.addi 8 9 10, 0x41444449#32), (Instr.slti 8 9 10, 0x534C5449#32)] ∧
    (Instr.bne 8 0 3, 0x424E4500#32) ∈ [(Instr.beq 8 0 3, 0x42455100#32), (Instr.bne 8 0 3, 0x424E4500#32)] ∧
    (Instr.sw 8 4 17, 0x53570000#32) ∈ [(Instr.lw 8 4 17, 0x4C570000#32), (Instr.sw 8 4 17, 0x53570000#32)] := by decide

/-- This hardware's widths, and the narrowest that carry everything; an operand at its maximum of each type. -/
theorem witness_PortsCarryTheirValuesAtEveryConfiguredWidth : hardware.portsWf = true ∧
    ({ hardware with opvalW := 17, mnemBytes := 4, outcomeW := 3 } : Config).portsWf = true ∧
    Operand.validFor .u16 .register (.register 31) = true ∧ Operand.validFor .u16 .immediate (.immediate 0xFFFF) = true := by
  decide

theorem witness_MnemonicPortIsExact : ∀ n ∈ InstrName.all, 0x61646400 ≠ mnemonicPort (c := hardware) n.mnemonic := by decide

/-- An empty, a register and an immediate slot of one decode result each. -/
theorem witness_OperandPortFollowsTheTagCodes :
    decode hardware 0x3C1FFFFF#32 = .ok InstrName.lui.mnemonic ⟨.register 31, .immediate 0xFFFF, .empty, .empty⟩ := by decide

/-- A success, a failure and an idle transaction of the encoder port. -/
theorem witness_EncoderPortDrivesTheEncodeResult :
    (addBoth.encIn.valid = true ∧ (∃ t, step addBoth = .next t) ∧
      encode hardware (portMnemonic addBoth.encIn.mnemonic) addBoth.encIn.operands = .ok 0x014B4820#32) ∧
    (wrongBoth.encIn.valid = true ∧ (∃ t, step wrongBoth = .next t) ∧
      encode hardware (portMnemonic wrongBoth.encIn.mnemonic) wrongBoth.encIn.operands = .fail .wrongCommand) ∧
    (State.reset.encIn.valid = false ∧ ∃ t, step State.reset = .next t) :=
  ⟨⟨by decide, ⟨_, test_step_add⟩, by decide⟩, ⟨by decide, ⟨_, test_step_wrong⟩, by decide⟩, by decide, ⟨_, test_step_idle⟩⟩

/-- The same of the decoder port. -/
theorem witness_DecoderPortDrivesTheDecodeResult :
    (addBoth.decIn.valid = true ∧ (∃ t, step addBoth = .next t) ∧
      decode hardware addBoth.decIn.word =
        .ok InstrName.add.mnemonic ⟨.register 9, .register 10, .register 11, .empty⟩) ∧
    (wrongBoth.decIn.valid = true ∧ (∃ t, step wrongBoth = .next t) ∧
      decode hardware wrongBoth.decIn.word = .fail .wrongCommand) ∧
    (State.reset.decIn.valid = false ∧ ∃ t, step State.reset = .next t) :=
  ⟨⟨by decide, ⟨_, test_step_add⟩, by decide⟩, ⟨by decide, ⟨_, test_step_wrong⟩, by decide⟩, by decide, ⟨_, test_step_idle⟩⟩

theorem witness_StepRunsTheDecodedInstruction :
    (addBoth.decIn.valid = true ∧ decodeInstr hardware addBoth.decIn.word = .ok (.add 9 10 11)) ∧
    (wrongBoth.decIn.valid = true ∧ decodeInstr hardware wrongBoth.decIn.word = .error .wrongCommand) ∧
    State.reset.decIn.valid = false ∧ decodeTableWord 32 0x8E280004 = some (.lw 8 4 17) := ⟨⟨rfl, rfl⟩, ⟨rfl, rfl⟩, rfl, by decide⟩

/-- Request A is the failing one, request B the one of `addBoth`. -/
theorem witness_ResultOfARequestDoesNotDependOnEarlierOnes : ∃ afterA afterB alone,
    step ((State.reset.withEncIn wrongBoth.encIn).withDecIn wrongBoth.decIn) = .next afterA ∧
    step ((afterA.withEncIn addBoth.encIn).withDecIn addBoth.decIn) = .next afterB ∧
    step ((State.reset.withEncIn addBoth.encIn).withDecIn addBoth.decIn) = .next alone :=
  ⟨_, _, _, test_step_wrong, rfl, test_step_add⟩

/-- Two transactions that share one port's inputs and differ in the other's. -/
theorem witness_PortsAreIndependent : ∃ t t', step addBoth = .next t ∧ step (addBoth.withDecIn ⟨true, 0⟩) = .next t' ∧
    addBoth.encIn = (addBoth.withDecIn ⟨true, 0⟩).encIn ∧ addBoth.decIn ≠ (addBoth.withDecIn ⟨true, 0⟩).decIn :=
  ⟨_, _, test_step_add, rfl, rfl, by decide⟩

/-- And the other way round. -/
theorem witness_PortsAreIndependent_decoder : ∃ t t', step addBoth = .next t ∧
    step (addBoth.withEncIn wrongBoth.encIn) = .next t' ∧
    addBoth.decIn = (addBoth.withEncIn wrongBoth.encIn).decIn ∧ addBoth.encIn ≠ (addBoth.withEncIn wrongBoth.encIn).encIn :=
  ⟨_, _, test_step_add, rfl, rfl, by decide⟩

/-- Also for EveryStepLeavesLegalOutputs. -/
theorem witness_PresentingARequestTwiceGivesTheSameResult : ∃ t, step addBoth = .next t := ⟨_, test_step_add⟩

end Sys2Proof.Tests
end

/-! # Proofs of the statements on the ports (10_state.md R25, R34 to R37) -/

namespace Sys2Proof

/-! ## What a search of the Descriptor Table finds -/

/-- What `dispatch` finds is the descriptor of some name, and the Word satisfies its pattern set (R151). -/
theorem dispatch_eq_some {c : Config} {w : Word} {d : Descriptor} (h : dispatch c w = some d) :
    ∃ n, d = descriptor c n ∧ d.matchesWord w = true := by
  have hmem : d ∈ table c := List.mem_of_find?_eq_some h
  obtain ⟨n, -, rfl⟩ := List.mem_map.mp hmem
  exact ⟨n, rfl, List.find?_some (p := fun d : Descriptor => d.matchesWord w) h⟩

/-! ## The fields of a Word as operands (R152) -/

/-- A field's value fits its width (R123). -/
theorem getField_lt (w : Word) (f : BitField) : getField w f < 2 ^ f.width := Nat.mod_lt _ (Nat.two_pow_pos _)

@[simp] theorem wordRs_toNat (w : Word) : (wordRs w).toNat = getField w rsField := Nat.mod_eq_of_lt (getField_lt w rsField)
@[simp] theorem wordRt_toNat (w : Word) : (wordRt w).toNat = getField w rtField := Nat.mod_eq_of_lt (getField_lt w rtField)
@[simp] theorem wordRd_toNat (w : Word) : (wordRd w).toNat = getField w rdField := Nat.mod_eq_of_lt (getField_lt w rdField)
@[simp] theorem wordImm_toNat (w : Word) : (wordImm w).toNat = getField w immField := Nat.mod_eq_of_lt (getField_lt w immField)

/-- What is extracted is a 5-bit register number or a 16-bit immediate. -/
theorem OperandField.extract_cases (f : OperandField) (w : Word) :
    (∃ r : RegNum, f.extract w = .register r.toNat) ∨ (∃ i : Imm16, f.extract w = .immediate i.toNat) := by
  cases f with
  | reg r =>
    cases r with
    | rs => exact .inl ⟨wordRs w, by rw [wordRs_toNat]; rfl⟩
    | rt => exact .inl ⟨wordRt w, by rw [wordRt_toNat]; rfl⟩
    | rd => exact .inl ⟨wordRd w, by rw [wordRd_toNat]; rfl⟩
  | imm => exact .inr ⟨wordImm w, by rw [wordImm_toNat]; rfl⟩

/-! ## Reading an operand list back -/

@[simp] theorem OperandList.get_allEmpty (k : Position) : OperandList.allEmpty.get k = .empty := by cases k <;> rfl

theorem OperandList.get_set (ops : OperandList) (j k : Position) (o : Operand) :
    (ops.set j o).get k = if k = j then o else ops.get k := by cases j <;> cases k <;> rfl

/-- A position of the extracted list is `EMPTY` or what one of the descriptor's fields holds (R152, R153). -/
theorem Descriptor.extractOperands_get_cases (d : Descriptor) (w : Word) (k : Position) :
    (d.extractOperands w).get k = .empty ∨ ∃ f : OperandField, (d.extractOperands w).get k = f.extract w := by
  refine List.foldlRecOn d.operandMap _ (motive := fun ops : OperandList =>
    ops.get k = .empty ∨ ∃ f : OperandField, ops.get k = f.extract w) (.inl (OperandList.get_allEmpty k)) ?_
  rintro ops ih ⟨j, f⟩ -
  rw [OperandList.get_set]
  split
  · exact .inr ⟨f, rfl⟩
  · exact ih

/-- A decoded position is `EMPTY`, a 5-bit register number or a 16-bit immediate. -/
theorem decode_get_cases {c : Config} {w : Word} {m : Mnemonic} {ops : OperandList} (h : decode c w = .ok m ops)
    (k : Position) : ops.get k = .empty ∨ (∃ r : RegNum, ops.get k = .register r.toNat) ∨
      ∃ i : Imm16, ops.get k = .immediate i.toNat := by
  unfold decode at h
  cases hd : dispatch c w with
  | none => simp [hd] at h
  | some d =>
    simp only [hd, DecResult.ok.injEq] at h
    obtain ⟨-, rfl⟩ := h
    obtain he | ⟨f, hf⟩ := d.extractOperands_get_cases w k
    · exact .inl he
    · rw [hf]
      exact .inr (f.extract_cases w)

/-! ## The decoder and the decoded instruction -/

@[simp] theorem InstrName.ofWord_name (n : InstrName) (w : Word) : (n.ofWord w).name = n := by cases n <;> rfl

/-- The operand list of the instruction is the list that its descriptor extracts. -/
theorem extractOperands_descriptor (c : Config) (n : InstrName) (w : Word) :
    (descriptor c n).extractOperands w = (n.ofWord w).operands := by
  cases n <;> simp [InstrName.ofWord, Instr.operands, Machine.formR3, Machine.formR2, Machine.formR1, Machine.formI,
    Machine.formLui, Machine.formBr, Machine.formLs] <;> rfl

/-- A Word that stands for an instruction decodes to the instruction's mnemonic and operand list (R152, R153). -/
theorem decode_of_decodeInstr_ok {c : Config} {w : Word} {i : Instr} (h : decodeInstr c w = .ok i) :
    decode c w = .ok i.name.mnemonic i.operands := by
  unfold decodeInstr at h
  unfold decode
  cases hd : dispatch c w with
  | none => simp [hd] at h
  | some d =>
    obtain ⟨n, rfl, -⟩ := dispatch_eq_some hd
    simp only [hd, descriptor_name, Except.ok.injEq] at h
    subst h
    simp only [descriptor_mnemonic, extractOperands_descriptor, InstrName.ofWord_name]

/-- A Word that stands for no instruction fails to decode with the same Outcome (R151). -/
theorem decode_of_decodeInstr_error {c : Config} {w : Word} {o : Outcome} (h : decodeInstr c w = .error o) :
    decode c w = .fail o := by
  unfold decodeInstr at h
  unfold decode
  cases hd : dispatch c w with
  | none => simpa [hd] using h
  | some d => simp [hd] at h

/-! ## The Outcomes of a call (R25) -/

/-- A decode is `WRONG_COMMAND` or completes (R151, R154). -/
theorem decode_outcome_cases (c : Config) (w : Word) :
    (decode c w).outcome = .wrongCommand ∨ (decode c w).outcome = .completeDecode := by
  unfold decode
  cases dispatch c w with
  | none => exact .inl rfl
  | some d => exact .inr rfl

/-- A slot's type error is `MISSING_REG` or `INVALID_PARAM` (R142). -/
theorem slotError_cases : ∀ {t : SlotType} {x : Operand} {o : Outcome}, slotError t x = some o →
    o = .missingReg ∨ o = .invalidParam
  | .register, .immediate _, _, rfl => .inl rfl
  | .register, .empty, _, rfl => .inl rfl
  | .immediate, .register _, _, rfl => .inr rfl
  | .immediate, .empty, _, rfl => .inr rfl

/-- The failure of step 2 is the error of some slot (R142). -/
theorem Descriptor.typeError_cases {d : Descriptor} {ops : OperandList} {o : Outcome} (h : d.typeError ops = some o) :
    o = .missingReg ∨ o = .invalidParam := by
  obtain ⟨kt, -, hkt⟩ := List.exists_of_findSome?_eq_some h
  exact slotError_cases hkt

/-- The ways steps 2 to 4 end, once the descriptor is known (R148). -/
theorem Descriptor.encode_outcome_mem (d : Descriptor) (ops : OperandList) :
    (d.encode ops).outcome ∈ [Outcome.missingReg, .invalidParam, .invalidReg, .invalidImmed, .completeEncode] := by
  unfold Descriptor.encode
  cases ht : d.typeError ops with
  | some o => obtain rfl | rfl := Descriptor.typeError_cases ht <;> simp [EncResult.outcome]
  | none =>
    cases d.regOutOfRange ops with
    | true => simp [EncResult.outcome]
    | false => cases d.immOutOfRange ops <;> simp [EncResult.outcome]

/-- The ways an encode ends: step 1 fails, or the descriptor found decides (R148). -/
theorem encode_outcome_mem (c : Config) (m : Mnemonic) (ops : OperandList) :
    (encode c m ops).outcome ∈ [Outcome.wrongCommand, .missingReg, .invalidParam, .invalidReg, .invalidImmed,
      .completeEncode] := by
  unfold encode
  cases lookup c m with
  | none => exact List.mem_cons_self
  | some d => exact List.mem_cons_of_mem _ (d.encode_outcome_mem ops)

/-- Settles O44: the codes are evaluated, the producers are the cases of the Encoder and the Decoder. -/
theorem outcomeCodesAndTheirProducers : Obligations.OutcomeCodesAndTheirProducers := by
  refine ⟨rfl, by decide, encode_outcome_mem hardware, fun w => ?_⟩
  obtain h | h := decode_outcome_cases hardware w <;> simp [h]

end Sys2Proof

namespace Sys2Proof.Machine

/-! ## Mnemonics at a port (R36) -/

/-- Encoding the mnemonic that a port value stands for gives the value back: nothing but padding was dropped. -/
theorem mnemonicPort_portMnemonic {c : Config} (p : c.MnemPort) : mnemonicPort (c := c) (portMnemonic p) = p := by
  refine mnemPort_ext _ _ fun i hi => ?_
  rw [portByte_mnemonicPort _ _ hi, portMnemonic, byteAt_dropTrailingNul]
  simp [byteAt, hi]

/-- Padding behind a byte string changes nothing of what is left without the padding. -/
theorem dropTrailingNul_append_replicate (m : List Byte) (k : Nat) :
    dropTrailingNul (m ++ List.replicate k 0) = dropTrailingNul m := by
  induction m with
  | nil =>
    induction k with
    | zero => rfl
    | succ k ih =>
      simp only [List.nil_append, List.replicate_succ, dropTrailingNul] at ih ⊢
      simp only [ih, if_true]
  | cons b bs ih => simp only [List.cons_append, dropTrailingNul, ih]

/-- The first `n` bytes of a mnemonic no longer than `n` are the mnemonic and its padding. -/
theorem map_byteAt_range (m : Mnemonic) (n : Nat) (h : m.length ≤ n) :
    (List.range n).map (byteAt m) = m ++ List.replicate (n - m.length) 0 := by
  refine List.ext_getElem (by simp; omega) fun i hi _ => ?_
  by_cases him : i < m.length
  · simp [byteAt, him]
  · simp [byteAt, him, List.getElem_append]

/-- The port value of a mnemonic that fits the port stands for the mnemonic without trailing `0x00` bytes. -/
theorem portMnemonic_mnemonicPort {c : Config} (m : Mnemonic) (h : m.length ≤ c.mnemBytes) :
    portMnemonic (mnemonicPort (c := c) m) = dropTrailingNul m := by
  have hbytes : (List.range c.mnemBytes).map (portByte (mnemonicPort (c := c) m)) =
      (List.range c.mnemBytes).map (byteAt m) :=
    List.map_congr_left fun i hi => portByte_mnemonicPort m i (List.mem_range.mp hi)
  rw [portMnemonic, hbytes, map_byteAt_range m _ h, dropTrailingNul_append_replicate]

theorem mnemonic_length_le (n : InstrName) : n.mnemonic.length ≤ 4 := by cases n <;> decide

theorem dropTrailingNul_mnemonic (n : InstrName) : dropTrailingNul n.mnemonic = n.mnemonic := by cases n <;> decide

/-- A port of 4 bytes or more carries a table mnemonic exactly: its encoding stands for it, and no other value does. -/
theorem portMnemonic_eq_mnemonic_iff {c : Config} (hc : 4 ≤ c.mnemBytes) (p : c.MnemPort) (n : InstrName) :
    portMnemonic p = n.mnemonic ↔ p = mnemonicPort n.mnemonic := by
  constructor
  · intro h
    rw [← h, mnemonicPort_portMnemonic]
  · rintro rfl
    rw [portMnemonic_mnemonicPort _ ((mnemonic_length_le n).trans hc), dropTrailingNul_mnemonic]

/-- A byte string that is no table mnemonic ends an encode at step 1 (41_encoder_decoder.md R141). -/
theorem encode_unknown (c : Config) (m : Mnemonic) (ops : OperandList) (h : ∀ n : InstrName, m ≠ n.mnemonic) :
    encode c m ops = .fail .wrongCommand := by
  unfold encode
  cases hl : lookup c m with
  | none => rfl
  | some d =>
    obtain ⟨n, -, hn⟩ := lookup_eq_some c m d hl
    exact absurd hn (h n)

/-- Settles O45: encoding inverts reading on every port value, and reading inverts encoding on the 16 mnemonics. -/
theorem mnemonicPortIsExact : Obligations.MnemonicPortIsExact := by
  have hexact : ∀ (p : hardware.MnemPort) (n : InstrName), portMnemonic p = n.mnemonic ↔ p = mnemonicPort n.mnemonic :=
    portMnemonic_eq_mnemonic_iff (le_refl 4)
  exact ⟨rfl, hexact, fun p ops hp => encode_unknown hardware _ ops fun n => (hexact p n).not.mpr (hp n), by decide⟩

/-! ## Operands at a port (R37) -/

@[simp] theorem OperandPort.operand_tag00 {c : Config} (v : c.OpVal) : OperandPort.operand ⟨0b00#2, v⟩ = .empty := rfl
@[simp] theorem OperandPort.operand_tag01 {c : Config} (v : c.OpVal) :
    OperandPort.operand ⟨0b01#2, v⟩ = .register v.toNat := rfl
@[simp] theorem OperandPort.operand_tag10 {c : Config} (v : c.OpVal) :
    OperandPort.operand ⟨0b10#2, v⟩ = .immediate v.toNat := rfl
@[simp] theorem OperandPort.operand_tag11 {c : Config} (v : c.OpVal) : OperandPort.operand ⟨0b11#2, v⟩ = .empty := rfl

/-- A number that fits the port's value is driven as it is. -/
theorem operandPort_val_toNat {c : Config} (o : Operand) (h : o.value < 2 ^ c.opvalW) :
    (operandPort (c := c) o).val.toNat = o.value := by
  cases o with
  | register n => exact Nat.mod_eq_of_lt h
  | immediate v => exact Nat.mod_eq_of_lt h
  | empty => exact Nat.zero_mod _

/-- An operand whose number fits the port's value reads back. -/
theorem operand_operandPort {c : Config} (o : Operand) (h : o.value < 2 ^ c.opvalW) :
    (operandPort (c := c) o).operand = o := by
  cases o with
  | register n => exact congrArg Operand.register (operandPort_val_toNat _ h)
  | immediate v => exact congrArg Operand.immediate (operandPort_val_toNat _ h)
  | empty => rfl

/-- Settles O46: a decoded operand is `EMPTY`, a 5-bit number or a 16-bit number, and each fits the port's 32 bits. -/
theorem operandPortFollowsTheTagCodes : Obligations.OperandPortFollowsTheTagCodes := by
  refine ⟨rfl, fun v => ⟨OperandPort.operand_tag00 v, OperandPort.operand_tag01 v, OperandPort.operand_tag10 v,
    OperandPort.operand_tag11 v⟩, fun w m ops k h => ?_⟩
  obtain he | ⟨r, hr⟩ | ⟨v, hv⟩ := decode_get_cases h k
  · rw [he]
    exact ⟨rfl, fun _ => rfl, nofun, nofun⟩
  · have hlt : (Operand.register r.toNat).value < 2 ^ hardware.opvalW := r.isLt.trans (by decide)
    rw [hr, operandPort_val_toNat _ hlt]
    exact ⟨operand_operandPort _ hlt, nofun, fun _ _ => ⟨rfl, regNum_le r⟩, nofun⟩
  · have hlt : (Operand.immediate v.toNat).value < 2 ^ hardware.opvalW := v.isLt.trans (by decide)
    rw [hv, operandPort_val_toNat _ hlt]
    exact ⟨operand_operandPort _ hlt, nofun, nofun, fun _ _ => ⟨rfl, imm16_le v⟩⟩

/-! ## The transaction as the two pure functions (R34, R35) -/

/-- The decoder port answers by the abstract decoder, though `serveDecoder` runs the decoded instruction's meaning. -/
theorem serveDecoder_eq (s : State) : serveDecoder s = .next (s.withDecOut s.decIn.response) := by
  obtain ⟨hv, hs⟩ | ⟨i, hv, hi, hs⟩ | ⟨o, hv, ho, hs⟩ := serveDecoder_cases s
  · rw [hs, idleDecode, DecInputs.response, hv]; rfl
  · rw [hs, exec_eq_deliver, deliver, DecInputs.response, hv, decode_of_decodeInstr_ok hi]; rfl
  · rw [hs, failDecode, DecInputs.response, hv, decode_of_decodeInstr_error ho]; rfl

/-- One transaction drives each port's response to its inputs and leaves the inputs. -/
theorem step_eq (s : State) : step s = .next ((s.withEncOut s.encIn.response).withDecOut s.decIn.response) :=
  serveDecoder_eq (serveEncoder s)

theorem step_encOut {s t : State} (h : step s = .next t) : t.encOut = s.encIn.response := by
  rw [step_eq, Host.Outcome.next.injEq] at h
  rw [← h, State.withDecOut_encOut, State.withEncOut_encOut]

theorem step_decOut {s t : State} (h : step s = .next t) : t.decOut = s.decIn.response := by
  rw [step_eq, Host.Outcome.next.injEq] at h
  rw [← h, State.withDecOut_decOut]

theorem EncInputs.response_of_idle {c : Config} {i : EncInputs c} (h : i.valid = false) : i.response = .only .noError := by
  simp [EncInputs.response, h]

theorem EncInputs.response_of_valid {c : Config} {i : EncInputs c} (h : i.valid = true) :
    i.response = encOutputs (encode c (portMnemonic i.mnemonic) i.operands) := by
  simp [EncInputs.response, h]

theorem DecInputs.response_of_idle {c : Config} {i : DecInputs} (h : i.valid = false) :
    i.response (c := c) = .only .noError := by
  simp [DecInputs.response, h]

theorem DecInputs.response_of_valid {c : Config} {i : DecInputs} (h : i.valid = true) :
    i.response (c := c) = decOutputs (decode c i.word) := by
  simp [DecInputs.response, h]

/-- Settles O47: the encoder outputs after a step are the response to the encoder inputs. -/
theorem encoderPortDrivesTheEncodeResult : Obligations.EncoderPortDrivesTheEncodeResult := by
  refine ⟨⟨rfl, rfl, rfl⟩, fun s t h => ⟨fun hv => ?_, fun hv => ⟨fun w hw => ?_, fun o ho => ?_⟩⟩⟩
  · rw [step_encOut h, EncInputs.response_of_idle hv]; rfl
  · rw [step_encOut h, EncInputs.response_of_valid hv, hw]; rfl
  · rw [step_encOut h, EncInputs.response_of_valid hv, ho]; rfl

/-- Settles O48: the decoder outputs after a step are the response to the decoder inputs. -/
theorem decoderPortDrivesTheDecodeResult : Obligations.DecoderPortDrivesTheDecodeResult := by
  refine ⟨⟨rfl, rfl, rfl⟩, fun s t h => ⟨fun hv => ?_, fun hv => ⟨fun hw => ?_, fun m ops hm => ?_⟩⟩⟩
  · rw [step_decOut h, DecInputs.response_of_idle hv]; rfl
  · rw [step_decOut h, DecInputs.response_of_valid hv, hw]; rfl
  · rw [step_decOut h, DecInputs.response_of_valid hv, hm]; rfl

end Sys2Proof.Machine

/-! # Proofs of the statements on the Descriptor Table's order (30_encoding.md R90, R95) -/

namespace Sys2Proof

/-! ## A name is known by its mnemonic, and by its opcode and function constant (R80, R81) -/

theorem InstrName.mem_all (n : InstrName) : n ∈ InstrName.all := by cases n <;> decide

theorem InstrName.mnemonic_injective : Function.Injective InstrName.mnemonic := fun a b h =>
  List.inj_on_of_nodup_map (by decide : (InstrName.all.map InstrName.mnemonic).Nodup) a.mem_all b.mem_all h

/-- Opcode 0 is shared by the names that have a function constant, and by no other. -/
theorem InstrName.funct_of_opcode_zero (c : Config) {n : InstrName} (h : n.opcode = 0) : ∃ v, n.funct c = some v := by
  cases n with
  | add | and | or | sub | slt | div | mult | mfhi | mflo => exact ⟨_, rfl⟩
  | addi | slti | lui | beq | bne | lw | sw => exact absurd h (by decide)

/-- Every opcode but 0 belongs to one name. -/
theorem InstrName.eq_of_opcode_ne_zero {a b : InstrName} (h0 : a.opcode ≠ 0) (h : a.opcode = b.opcode) : a = b :=
  (by decide : ∀ a ∈ InstrName.all, ∀ b ∈ InstrName.all, a.opcode ≠ 0 → a.opcode = b.opcode → a = b)
    a a.mem_all b b.mem_all h0 h

theorem Config.functs_eq (c : Config) : c.functs = InstrName.all.filterMap (InstrName.funct c) := rfl

/-- Two names have no function constant in common. -/
def InstrName.FunctsDiffer (c : Config) (a b : InstrName) : Prop :=
  ∀ u, a.funct c = some u → ∀ v, b.funct c = some v → u ≠ v

theorem InstrName.functsDiffer_symm (c : Config) : Std.Symm (InstrName.FunctsDiffer c) :=
  ⟨fun _ _ h u hu v hv => (h v hv u hu).symm⟩

/-- The function constants are pairwise different (R81), so one constant belongs to one name. -/
theorem Config.name_eq_of_funct {c : Config} (hc : c.wf = true) {a b : InstrName} {v : BitVec 6}
    (ha : a.funct c = some v) (hb : b.funct c = some v) : a = b := by
  have hd : InstrName.all.Pairwise (InstrName.FunctsDiffer c) :=
    List.pairwise_filterMap.mp (c.functs_eq ▸ Config.wf_functs hc)
  have := InstrName.functsDiffer_symm c
  by_contra hne
  exact hd.forall a.mem_all b.mem_all hne v ha v hb rfl

/-! ## A Word satisfies the pattern set of at most one name (R90) -/

/-- A literal's character accepts its own bit and no other. -/
theorem Bit.toPat_accepts {x : Bit} {b : Bool} : x.toPat.accepts b = true ↔ x = Bit.ofBool b := by
  cases x <;> cases b <;> decide

/-- One Word cannot agree with two strings at the same bits. -/
theorem matchBits_toPat_inj (w : Word) : ∀ {a b : List Bit} {h : Nat}, a.length = b.length →
    matchBits w h (a.map Bit.toPat) = true → matchBits w h (b.map Bit.toPat) = true → a = b
  | [], [], _, _, _, _ => rfl
  | x :: a, y :: b, h, hl, ha, hb => by
    simp only [List.map_cons, matchBits, Bool.and_eq_true, Bit.toPat_accepts] at ha hb
    obtain ⟨hx, ha⟩ := ha
    obtain ⟨hy, hb⟩ := hb
    rw [hx, hy, matchBits_toPat_inj w (Nat.succ.inj hl) ha hb]

theorem bits6_injective : Function.Injective bits6 := fun u v h =>
  BitVec.eq_of_toNat_eq (by rw [← bits6_value u, h, bits6_value v])

theorem opcode_eq_of_matchField {w : Word} {u v : BitVec 6} (hu : matchField w (opcodeLiteral u).toPattern = true)
    (hv : matchField w (opcodeLiteral v).toPattern = true) : u = v :=
  bits6_injective (matchBits_toPat_inj w rfl hu hv)

theorem funct_eq_of_matchField {w : Word} {u v : BitVec 6} (hu : matchField w (functLiteral u).toPattern = true)
    (hv : matchField w (functLiteral v).toPattern = true) : u = v :=
  bits6_injective (matchBits_toPat_inj w rfl hu hv)

/-- Under either filler policy, a pattern set checks the opcode. -/
theorem matchField_opcode_of_matchesWord {c : Config} {n : InstrName} {w : Word}
    (h : (descriptor c n).matchesWord w = true) : matchField w (opcodeLiteral n.opcode).toPattern = true :=
  List.all_eq_true.mp h _ (by simp [descriptor_patterns, patternSet])

/-- Under either filler policy, a pattern set checks the function constant where there is one. -/
theorem matchField_funct_of_matchesWord {c : Config} {n : InstrName} {w : Word} {v : BitVec 6}
    (h : (descriptor c n).matchesWord w = true) (hv : n.funct c = some v) :
    matchField w (functLiteral v).toPattern = true :=
  List.all_eq_true.mp h _ (by simp [descriptor_patterns, patternSet, hv])

/-- The opcode tells two names apart, or it is 0 and the function constant does. -/
theorem name_eq_of_matchesWord {c : Config} (hc : c.wf = true) {w : Word} {a b : InstrName}
    (ha : (descriptor c a).matchesWord w = true) (hb : (descriptor c b).matchesWord w = true) : a = b := by
  have hop : a.opcode = b.opcode :=
    opcode_eq_of_matchField (matchField_opcode_of_matchesWord ha) (matchField_opcode_of_matchesWord hb)
  by_cases h0 : a.opcode = 0
  · obtain ⟨u, hu⟩ := InstrName.funct_of_opcode_zero c h0
    obtain ⟨v, hv⟩ := InstrName.funct_of_opcode_zero c (hop.symm.trans h0)
    obtain rfl : u = v :=
      funct_eq_of_matchField (matchField_funct_of_matchesWord ha hu) (matchField_funct_of_matchesWord hb hv)
    exact Config.name_eq_of_funct hc hu hv
  · exact InstrName.eq_of_opcode_ne_zero h0 hop

/-! ## The order of the table (R95) -/

/-- The order is no part of a descriptor. -/
@[simp] theorem descriptor_withOrder (c : Config) (order : List InstrName) (n : InstrName) :
    descriptor { c with tableOrder := order } n = descriptor c n := rfl

/-- A search for a property that at most one name has answers the same in every order that lists all names. -/
theorem table_find_withOrder {c : Config} {order : List InstrName} (hc : c.wf = true)
    (ho : ({ c with tableOrder := order } : Config).wf = true) (p : Descriptor → Bool)
    (hu : ∀ a b, p (descriptor c a) = true → p (descriptor c b) = true → a = b) :
    (table { c with tableOrder := order }).find? p = (table c).find? p := by
  by_cases h : ∃ n, p (descriptor c n) = true
  · obtain ⟨n, hn⟩ := h
    have hn' : ∀ m, p (descriptor c m) = true → m = n := fun m hm => hu m n hm hn
    exact (table_find _ p n (Config.wf_mem ho n) hn hn').trans (table_find c p n (Config.wf_mem hc n) hn hn').symm
  · have hnone : ∀ order', (table { c with tableOrder := order' }).find? p = none := fun order' => by
      refine List.find?_eq_none.mpr fun d hd hp => h ?_
      obtain ⟨n, -, rfl⟩ := List.mem_map.mp hd
      exact ⟨n, hp⟩
    exact (hnone order).trans (hnone c.tableOrder).symm

theorem dispatch_withOrder {c : Config} {order : List InstrName} (hc : c.wf = true)
    (ho : ({ c with tableOrder := order } : Config).wf = true) (w : Word) :
    dispatch { c with tableOrder := order } w = dispatch c w :=
  table_find_withOrder hc ho _ fun _ _ => name_eq_of_matchesWord hc

theorem lookup_withOrder {c : Config} {order : List InstrName} (hc : c.wf = true)
    (ho : ({ c with tableOrder := order } : Config).wf = true) (m : Mnemonic) :
    lookup { c with tableOrder := order } m = lookup c m :=
  table_find_withOrder hc ho _ fun _ _ ha hb =>
    InstrName.mnemonic_injective ((beq_iff_eq.mp ha).trans (beq_iff_eq.mp hb).symm)

/-- Settles O14: both searches of the table are for a property that at most one name has. -/
theorem tableOrderCannotBeObserved : Obligations.TableOrderCannotBeObserved := by
  refine ⟨rfl, fun c order hc ho => ⟨fun w => ?_, fun m ops => ?_⟩⟩
  · rw [decode, decode, dispatch_withOrder hc ho]
  · rw [encode, encode, lookup_withOrder hc ho]

end Sys2Proof

/-! # Proofs of the statements on the codec primitives (40_codec_primitives.md R121 to R124) -/

namespace Sys2Proof

/-! ## Bits of a Word, and characters of a string, by their position in a field -/

/-- Character `k` of a string placed in a field stands at bit `width - 1 - k` of the field's value (R122). -/
theorem BitField.highBit_sub (f : BitField) {k : Nat} (hk : k < f.width) :
    f.highBit - k = f.lowBit + (f.width - 1 - k) := by
  have hb := f.bounds
  omega

/-- A bit number lies outside a field, or a character of the field stands there. -/
theorem BitField.outside_or_character (f : BitField) (i : Nat) :
    (f.highBit < i ∨ i < f.lowBit) ∨ ∃ k < f.width, i = f.highBit - k := by
  have hb := f.bounds
  by_cases h : f.highBit < i ∨ i < f.lowBit
  · exact .inl h
  · exact .inr ⟨f.highBit - i, by omega, by omega⟩

/-- Two Words that agree outside a field are equal iff they agree at each character of the field. -/
theorem word_eq_iff_of_eq_outside {u v : Word} (f : BitField)
    (ho : ∀ i, i < 32 → (f.highBit < i ∨ i < f.lowBit) → u.getLsbD i = v.getLsbD i) :
    u = v ↔ ∀ k < f.width, u.getLsbD (f.highBit - k) = v.getLsbD (f.highBit - k) := by
  refine ⟨fun h k _ => h ▸ rfl, fun h => BitVec.eq_of_getLsbD_eq fun i hi => ?_⟩
  obtain hout | ⟨k, hk, rfl⟩ := f.outside_or_character i
  · exact ho i hi hout
  · exact h k hk

/-- Two values of `n` bits are equal iff they agree at each bit, counted from the most significant. -/
theorem eq_iff_testBit_of_lt_two_pow {a b n : Nat} (ha : a < 2 ^ n) (hb : b < 2 ^ n) :
    a = b ↔ ∀ k < n, a.testBit (n - 1 - k) = b.testBit (n - 1 - k) := by
  refine ⟨fun h k _ => h ▸ rfl, fun h => Nat.eq_of_testBit_eq fun j => ?_⟩
  by_cases hj : j < n
  · have hk := h (n - 1 - j) (by omega)
    rwa [Nat.sub_sub_self (Nat.le_sub_one_of_lt hj)] at hk
  · have hle : 2 ^ n ≤ 2 ^ j := Nat.pow_le_pow_right (by decide) (by omega)
    rw [Nat.testBit_lt_two_pow (ha.trans_le hle), Nat.testBit_lt_two_pow (hb.trans_le hle)]

/-- Bit `i` of a value moved up to a field's lowest bit. -/
theorem ofNat_mul_two_pow_getLsbD (v low : Nat) {i : Nat} (hi : i < 32) :
    (BitVec.ofNat 32 (v * 2 ^ low)).getLsbD i = (decide (low ≤ i) && v.testBit (i - low)) := by
  rw [BitVec.getLsbD_ofNat, decide_eq_true hi, Bool.true_and, Nat.testBit_mul_two_pow]

/-- A value that fits a field and is moved up to it has, at a character of the field, the value's bit. -/
theorem ofNat_mul_two_pow_getLsbD_character (v : Nat) (f : BitField) {k : Nat} (hk : k < f.width) :
    (BitVec.ofNat 32 (v * 2 ^ f.lowBit)).getLsbD (f.highBit - k) = v.testBit (f.width - 1 - k) := by
  have hb := f.bounds
  rw [ofNat_mul_two_pow_getLsbD _ _ (by omega), f.highBit_sub hk]
  simp

/-- And it has zeros outside the field. -/
theorem ofNat_mul_two_pow_getLsbD_outside {v : Nat} (f : BitField) (hv : v < 2 ^ f.width) {i : Nat} (hi : i < 32)
    (ho : f.highBit < i ∨ i < f.lowBit) : (BitVec.ofNat 32 (v * 2 ^ f.lowBit)).getLsbD i = false := by
  have hb := f.bounds
  rw [ofNat_mul_two_pow_getLsbD _ _ hi]
  rcases ho with habove | hbelow
  · have hle : 2 ^ f.width ≤ 2 ^ (i - f.lowBit) := Nat.pow_le_pow_right (by decide) (by omega)
    rw [Nat.testBit_lt_two_pow (hv.trans_le hle), Bool.and_false]
  · rw [decide_eq_false (by omega), Bool.false_and]

/-! ## `setField` and `setFieldLiteral` (R121, R122) -/

theorem setField_getLsbD (w : Word) (f : BitField) (v : Nat) {i : Nat} (hi : i < 32) :
    (setField w f v).getLsbD i =
      if f.lowBit ≤ i ∧ i ≤ f.highBit then v.testBit (i - f.lowBit) else w.getLsbD i := by
  simp only [setField, BitVec.getLsbD_or, BitVec.getLsbD_and, BitVec.getLsbD_not, fieldMask_getLsbD f i hi,
    ofNat_mul_two_pow_getLsbD _ _ hi, hi, decide_true, Bool.true_and]
  by_cases h : f.lowBit ≤ i ∧ i ≤ f.highBit <;> simp [h]

theorem setField_getLsbD_outside (w : Word) (f : BitField) (v : Nat) {i : Nat} (hi : i < 32)
    (ho : f.highBit < i ∨ i < f.lowBit) : (setField w f v).getLsbD i = w.getLsbD i := by
  rw [setField_getLsbD w f v hi, if_neg (by omega)]

theorem setField_getLsbD_character (w : Word) (f : BitField) (v : Nat) {k : Nat} (hk : k < f.width) :
    (setField w f v).getLsbD (f.highBit - k) = v.testBit (f.width - 1 - k) := by
  have hb := f.bounds
  rw [setField_getLsbD w f v (by omega), if_pos (by omega), f.highBit_sub hk, Nat.add_sub_cancel_left]

/-- The bits of a value above the field's width are dropped (92_eei_decisions.md D14). -/
theorem setField_mod (w : Word) (f : BitField) (v : Nat) : setField w f v = setField w f (v % 2 ^ f.width) := by
  refine (word_eq_iff_of_eq_outside f fun i hi ho => ?_).mpr fun k hk => ?_
  · rw [setField_getLsbD_outside w f v hi ho, setField_getLsbD_outside w f _ hi ho]
  · rw [setField_getLsbD_character w f v hk, setField_getLsbD_character w f _ hk, Nat.testBit_mod_two_pow,
      decide_eq_true (show f.width - 1 - k < f.width by omega), Bool.true_and]

/-- Settles O1, bit by bit: the mask takes the value's bit inside the field and the old bit outside it. -/
theorem setFieldWritesItsFieldAndNothingElse : Obligations.SetFieldWritesItsFieldAndNothingElse :=
  fun w f v => ⟨fun _ hi => setField_getLsbD w f v hi, setField_mod w f v⟩

/-- Bit `length - 1 - k` of a literal's value is its character `k` (R122). -/
theorem bitsValue_testBit_character (bs : List Bit) {k : Nat} (hk : k < bs.length) :
    (bitsValue bs).testBit (bs.length - 1 - k) = (bs[k] == Bit.b1) := by
  rw [bitsValue_testBit, dif_pos (by omega)]
  simp only [Nat.sub_sub_self (Nat.le_sub_one_of_lt hk)]

/-- Settles O2: the literal's value is written as a field, and its bits are the characters. -/
theorem setFieldLiteralWritesItsCharacters : Obligations.SetFieldLiteralWritesItsCharacters :=
  fun w l => ⟨fun _ hk => (setField_getLsbD_character w l.field _ hk).trans (bitsValue_testBit_character l.bits hk),
    fun _ hi ho => setField_getLsbD_outside w l.field _ hi ho⟩

/-! ## `getField` (R123) -/

theorem getField_testBit (w : Word) (f : BitField) (i : Nat) :
    (getField w f).testBit i = (decide (i < f.width) && w.getLsbD (f.lowBit + i)) := by
  rw [getField, Nat.testBit_mod_two_pow, Nat.testBit_div_two_pow, Nat.add_comm, BitVec.testBit_toNat]

theorem getField_testBit_character (w : Word) (f : BitField) {k : Nat} (hk : k < f.width) :
    (getField w f).testBit (f.width - 1 - k) = w.getLsbD (f.highBit - k) := by
  rw [getField_testBit, decide_eq_true (by omega), Bool.true_and, f.highBit_sub hk]

/-- Settles O3: the quotient drops the bits below the field, the remainder those above it. -/
theorem getFieldIsTheUnsignedFieldValue : Obligations.GetFieldIsTheUnsignedFieldValue :=
  fun w f => ⟨getField_lt w f, getField_testBit w f⟩

/-! ## `matchField` (R124) -/

/-- The loop of R124 on a pattern, position by position. -/
theorem matchField_iff (w : Word) (p : FieldPattern) : matchField w p = true ↔
    ∀ (i : Nat) (h : i < p.bits.length), (p.bits[i] = PatBit.b0 → w.getLsbD (p.highBit - i) = false) ∧
      (p.bits[i] = PatBit.b1 → w.getLsbD (p.highBit - i) = true) := by
  obtain ⟨-, -, hw⟩ := p.field.bounds
  exact matchBits_iff w p.bits p.highBit (le_of_add_le_right hw.le)

theorem careValue_testBit_character (ps : List PatBit) {k : Nat} (hk : k < ps.length) :
    (careValue ps).testBit (ps.length - 1 - k) = (ps[k] != PatBit.x) := by
  rw [((careValue_testBit ps).2 _).1, dif_pos (by omega)]
  simp only [Nat.sub_sub_self (Nat.le_sub_one_of_lt hk)]

theorem wantValue_testBit_character (ps : List PatBit) {k : Nat} (hk : k < ps.length) :
    (wantValue ps).testBit (ps.length - 1 - k) = (ps[k] == PatBit.b1) := by
  rw [((careValue_testBit ps).2 _).2, dif_pos (by omega)]
  simp only [Nat.sub_sub_self (Nat.le_sub_one_of_lt hk)]

theorem FieldPattern.care_getLsbD_character (p : FieldPattern) {k : Nat} (hk : k < p.bits.length) :
    p.care.getLsbD (p.highBit - k) = (p.bits[k] != PatBit.x) :=
  (ofNat_mul_two_pow_getLsbD_character _ p.field hk).trans (careValue_testBit_character p.bits hk)

theorem FieldPattern.want_getLsbD_character (p : FieldPattern) {k : Nat} (hk : k < p.bits.length) :
    p.want.getLsbD (p.highBit - k) = (p.bits[k] == PatBit.b1) :=
  (ofNat_mul_two_pow_getLsbD_character _ p.field hk).trans (wantValue_testBit_character p.bits hk)

/-- One character in both of R124's forms: compared unless it is `x`, or masked and compared with the wanted bit. -/
theorem PatBit.masked_eq_wanted_iff (c : PatBit) (b : Bool) :
    (b && (c != PatBit.x)) = (c == PatBit.b1) ↔ (c = PatBit.b0 → b = false) ∧ (c = PatBit.b1 → b = true) := by
  cases c <;> cases b <;> decide

/-- The (care, want) form of R124: masked and wanted word are both zero outside the field, and inside it they agree
character by character. -/
theorem matchField_iff_care_want (w : Word) (p : FieldPattern) : matchField w p = true ↔ w &&& p.care = p.want := by
  obtain ⟨⟨hcare, hwant⟩, -⟩ := careValue_testBit p.bits
  have hout : ∀ i, i < 32 → (p.field.highBit < i ∨ i < p.field.lowBit) →
      (w &&& p.care).getLsbD i = p.want.getLsbD i := fun i hi ho => by
    rw [BitVec.getLsbD_and, FieldPattern.care, FieldPattern.want, ofNat_mul_two_pow_getLsbD_outside p.field hcare hi ho,
      ofNat_mul_two_pow_getLsbD_outside p.field hwant hi ho, Bool.and_false]
  rw [matchField_iff, word_eq_iff_of_eq_outside p.field hout]
  refine forall₂_congr fun k hk => ?_
  rw [BitVec.getLsbD_and, p.care_getLsbD_character hk, p.want_getLsbD_character hk, PatBit.masked_eq_wanted_iff]

theorem matchField_of_all_x (w : Word) {p : FieldPattern} (hx : ∀ b ∈ p.bits, b = PatBit.x) : matchField w p = true := by
  refine (matchField_iff w p).mpr fun i hi => ?_
  rw [hx _ (List.getElem_mem hi)]
  exact ⟨nofun, nofun⟩

/-- A literal's character, read as a pattern's, asks for its own bit. -/
theorem Bit.toPat_asks_iff (c : Bit) (b : Bool) :
    (c.toPat = PatBit.b0 → b = false) ∧ (c.toPat = PatBit.b1 → b = true) ↔ b = (c == Bit.b1) := by
  cases c <;> cases b <;> decide

/-- A literal is matched iff the field reads as its value: both say that each character equals its bit. -/
theorem matchField_toPattern_iff (w : Word) (l : FieldLiteral) :
    matchField w l.toPattern = true ↔ getField w l.field = bitsValue l.bits := by
  rw [matchField_iff, eq_iff_testBit_of_lt_two_pow (getField_lt w l.field) (bitsValue_lt l.bits)]
  simp only [FieldLiteral.toPattern, List.length_map, List.getElem_map, Bit.toPat_asks_iff]
  refine forall₂_congr fun k hk => ?_
  rw [← bitsValue_testBit_character l.bits hk, ← getField_testBit_character w l.field hk]

/-- Settles O4: each form says the same of each character of the pattern. -/
theorem matchFieldComparesEveryNonWildcardBit : Obligations.MatchFieldComparesEveryNonWildcardBit :=
  fun w => ⟨fun p => ⟨matchField_iff w p, matchField_iff_care_want w p, matchField_of_all_x w⟩,
    matchField_toPattern_iff w⟩

end Sys2Proof

/-! # Proofs of the statements on the Encoder and the Decoder (41_encoder_decoder.md R141 to R160) -/

namespace Sys2Proof

/-! ## Step 1: the lookup (R141) -/

theorem lookup_mnemonic {c : Config} (hc : c.wf = true) (n : InstrName) :
    lookup c n.mnemonic = some (descriptor c n) :=
  table_find c _ n (Config.wf_mem hc n) (beq_self_eq_true n.mnemonic) fun _ hm =>
    InstrName.mnemonic_injective (beq_iff_eq.mp hm)

theorem lookup_unknown (c : Config) {m : Mnemonic} (h : ∀ n : InstrName, m ≠ n.mnemonic) : lookup c m = none := by
  cases hl : lookup c m with
  | none => rfl
  | some d =>
    obtain ⟨n, -, hn⟩ := lookup_eq_some c m d hl
    exact absurd hn (h n)

/-- What the lookup of a mnemonic finds, if the table lists it, is that mnemonic's descriptor. -/
theorem lookup_mnemonic_cases (c : Config) (n : InstrName) :
    lookup c n.mnemonic = none ∨ lookup c n.mnemonic = some (descriptor c n) := by
  cases hl : lookup c n.mnemonic with
  | none => exact .inl rfl
  | some d =>
    obtain ⟨n', rfl, hn⟩ := lookup_eq_some c _ d hl
    exact .inr (by rw [InstrName.mnemonic_injective hn])

/-- Once the mnemonic is found, its descriptor decides. -/
theorem encode_mnemonic {c : Config} (hc : c.wf = true) (n : InstrName) (ops : OperandList) :
    encode c n.mnemonic ops = (descriptor c n).encode ops := by
  rw [encode, lookup_mnemonic hc]

/-- Settles O16: the table search is for a property that the mnemonic's own descriptor has and no other. -/
theorem mnemonicLookupIsExact : Obligations.MnemonicLookupIsExact :=
  fun c hc => ⟨lookup_mnemonic hc, fun _ _ h => InstrName.mnemonic_injective h,
    fun m ops h => ⟨lookup_unknown c h, Machine.encode_unknown c m ops h⟩⟩

/-! ## Step 2: the types, in the order of the positions (R142) -/

/-- The Outcome of a position that expects a type and holds none of it (R142). -/
def SlotType.wrongTypeOutcome : SlotType → Outcome
  | .register => .missingReg
  | .immediate => .invalidParam

theorem slotError_of_wrongType : ∀ {t : SlotType} {o : Operand}, o.hasType t = false →
    slotError t o = some t.wrongTypeOutcome
  | .register, .immediate _, _ => rfl
  | .register, .empty, _ => rfl
  | .immediate, .register _, _ => rfl
  | .immediate, .empty, _ => rfl

/-- The first wrongly typed slot ends the encoding, whatever stands behind it. -/
theorem Descriptor.encode_of_wrongType {d : Descriptor} {ops : OperandList} {before after : List (Position × SlotType)}
    {k : Position} {t : SlotType} (hd : d.slotTypes = before ++ (k, t) :: after)
    (hbefore : ∀ kt ∈ before, (ops.get kt.1).hasType kt.2 = true) (hk : (ops.get k).hasType t = false) :
    d.encode ops = .fail t.wrongTypeOutcome := by
  have hnone : before.findSome? (fun kt => slotError kt.2 (ops.get kt.1)) = none :=
    List.findSome?_eq_none_iff.mpr fun kt hkt => (slotError_eq_none _ _).mpr (hbefore kt hkt)
  have herr : d.typeError ops = some t.wrongTypeOutcome := by
    rw [Descriptor.typeError, hd, List.findSome?_append, hnone, Option.none_or, List.findSome?_cons,
      slotError_of_wrongType hk]
  rw [Descriptor.encode, herr]

theorem Format.operandMap_positions (fmt : Format) : fmt.operandMap.map Prod.fst =
    [Position.p1, .p2, .p3, .p4].take fmt.operandMap.length := by
  cases fmt <;> rfl

/-- Settles O17: the slots before the first wrongly typed one raise no error, and the search stops there. -/
theorem firstWronglyTypedPositionDecides : Obligations.FirstWronglyTypedPositionDecides := by
  refine ⟨fun c n => ?_, fun c n ops before after k t hc hd hbefore hk => ?_⟩
  · rw [descriptor_slotTypes, List.map_map, List.length_map]
    exact n.format.operandMap_positions
  · rw [encode_mnemonic hc, Descriptor.encode_of_wrongType hd hbefore hk]
    exact ⟨fun ht => by rw [ht]; rfl, fun ht => by rw [ht]; rfl⟩

/-! ## Steps 3 and 4: the ranges (R143, R144, R149) -/

/-- What is left of the encoding when every declared operand has its type. -/
theorem Descriptor.encode_of_typed {d : Descriptor} {ops : OperandList}
    (h : ∀ kt ∈ d.slotTypes, (ops.get kt.1).hasType kt.2 = true) :
    d.encode ops = if d.regOutOfRange ops then .fail .invalidReg
      else if d.immOutOfRange ops then .fail .invalidImmed else .ok (d.pack ops) := by
  rw [Descriptor.encode, (d.typeError_eq_none ops).mpr h]

theorem Descriptor.regOutOfRange_eq_false_iff (d : Descriptor) (ops : OperandList) :
    d.regOutOfRange ops = false ↔ ∀ k, (k, SlotType.register) ∈ d.slotTypes → (ops.get k).value ≤ 31 := by
  rw [← Bool.not_eq_true, d.regOutOfRange_iff]
  push Not
  rfl

theorem Descriptor.immOutOfRange_eq_false_iff (d : Descriptor) (ops : OperandList) :
    d.immOutOfRange ops = false ↔
      ∀ k, (k, SlotType.immediate) ∈ d.slotTypes → (ops.get k).value ≤ d.immPolicy.max := by
  rw [← Bool.not_eq_true, d.immOutOfRange_iff]
  push Not
  rfl

theorem Format.immediateSlots_length_le (fmt : Format) :
    ((fmt.operandMap.map fun kf => (kf.1, kf.2.slotType)).filter fun kt => kt.2 = .immediate).length ≤ 1 := by
  cases fmt <;> decide

/-- Settles O18: each condition on the operands is the verdict of one range check, and the checks are tried in order. -/
theorem rangesAreCheckedRegistersFirst : Obligations.RangesAreCheckedRegistersFirst := by
  refine ⟨fun c n ops hc ht => ?_, fun n => rfl, fun c n => n.format.immediateSlots_length_le⟩
  rw [encode_mnemonic hc, Descriptor.encode_of_typed ht, ← descriptor_immPolicy c n,
    ← (descriptor c n).regOutOfRange_iff, ← (descriptor c n).immOutOfRange_iff,
    ← (descriptor c n).regOutOfRange_eq_false_iff, ← (descriptor c n).immOutOfRange_eq_false_iff]
  cases (descriptor c n).regOutOfRange ops with
  | true => simp
  | false => cases (descriptor c n).immOutOfRange ops <;> simp

/-- The Encoder answers a Word exactly on the valid requests, and the Word is the packed one (R145, R148). -/
theorem Descriptor.encode_eq_ok_iff (d : Descriptor) (ops : OperandList) (w : Word) :
    d.encode ops = .ok w ↔ d.validOperands ops = true ∧ d.pack ops = w := by
  rw [d.validOperands_iff, Descriptor.encode]
  cases d.typeError ops with
  | some o => simp
  | none =>
    cases d.regOutOfRange ops with
    | true => simp
    | false => cases d.immOutOfRange ops <;> simp

/-! ## The pattern set of a descriptor as one mask and one match value (R89, R151) -/

/-- One bit under two masks that do not both check it. -/
theorem and_or_eq_or_iff_bit : ∀ w m care v want : Bool, (m && care) = false → (v && m) = v →
    (want && care) = want → ((w && (m || care)) = (v || want) ↔ (w && m) = v ∧ (w && care) = want) := by
  decide

/-- Two disjoint masks ask together what each asks alone. -/
theorem and_or_eq_or_iff {w m care v want : Word} (hd : m &&& care = 0) (hv : v &&& m = v)
    (hwant : want &&& care = want) : w &&& (m ||| care) = v ||| want ↔ w &&& m = v ∧ w &&& care = want := by
  simp only [BitVec.eq_of_getLsbD_eq_iff, BitVec.getLsbD_and, BitVec.getLsbD_or] at hd hv hwant ⊢
  rw [← forall₂_and]
  exact forall₂_congr fun i hi =>
    and_or_eq_or_iff_bit _ _ _ _ _ ((hd i hi).trans BitVec.getLsbD_zero) (hv i hi) (hwant i hi)

theorem or_and_or_eq_left_bit : ∀ m care v want : Bool, (v && m) = v → (want && care) = want →
    ((v || want) && (m || care)) = (v || want) := by
  decide

/-- What two wanted words ask for, their masks check. -/
theorem or_and_or_eq_left {m care v want : Word} (hv : v &&& m = v) (hwant : want &&& care = want) :
    (v ||| want) &&& (m ||| care) = v ||| want := by
  simp only [BitVec.eq_of_getLsbD_eq_iff, BitVec.getLsbD_and, BitVec.getLsbD_or] at hv hwant ⊢
  exact fun i hi => or_and_or_eq_left_bit _ _ _ _ (hv i hi) (hwant i hi)

/-- A pattern wants nothing that it does not check: its wanted word satisfies it. -/
theorem FieldPattern.want_and_care (p : FieldPattern) : p.want &&& p.care = p.want := by
  refine (matchField_iff_care_want p.want p).mp ((matchField_iff p.want p).mpr fun i hi => ?_)
  rw [p.want_getLsbD_character hi]
  exact ⟨fun h => by rw [h]; rfl, fun h => by rw [h]; rfl⟩

/-- The loop that collects mask and match value, from a mask and a match value collected before. -/
theorem and_foldl_care_eq_foldl_want_iff (w : Word) (ps : List FieldPattern) : ∀ m v : Word, v &&& m = v →
    (∀ p ∈ ps, m &&& p.care = 0) → ps.Pairwise (fun p q => p.care &&& q.care = 0) →
    (w &&& ps.foldl (fun m p => m ||| p.care) m = ps.foldl (fun v p => v ||| p.want) v ↔
      w &&& m = v ∧ ∀ p ∈ ps, matchField w p = true) := by
  induction ps with
  | nil => simp
  | cons p ps ih =>
    intro m v hv hm hps
    obtain ⟨hmp, hm⟩ := List.forall_mem_cons.mp hm
    obtain ⟨hp, hps⟩ := List.pairwise_cons.mp hps
    have hm' : ∀ q ∈ ps, (m ||| p.care) &&& q.care = 0 := fun q hq => by
      rw [BitVec.and_or_distrib_right, hm q hq, hp q hq]; rfl
    rw [List.foldl_cons, List.foldl_cons, ih _ _ (or_and_or_eq_left hv p.want_and_care) hm' hps,
      and_or_eq_or_iff hmp hv p.want_and_care, List.forall_mem_cons, matchField_iff_care_want w p, and_assoc]

/-- Which bits a pattern set checks does not depend on the constants. -/
theorem patternSet_map_care (policy : FillerPolicy) (fields : List FieldDecl) (opcode : BitVec 6)
    (funct : Option (BitVec 6)) : (patternSet policy fields opcode funct).map FieldPattern.care =
      0xFC000000#32 :: (fillerPatterns policy fields).map FieldPattern.care ++
        (funct.map fun _ => 0x0000003F#32).toList := by
  cases funct <;> simp [patternSet, opcodePattern_care, functPattern_care]

/-- No bit of a format is opcode, filler and function constant at once. -/
theorem Format.cares_disjoint (policy : FillerPolicy) (fmt : Format) :
    (0xFC000000#32 :: (fillerPatterns policy fmt.fields).map FieldPattern.care ++ [0x0000003F#32]).Pairwise
      fun a b => a &&& b = 0 := by
  cases policy <;> cases fmt <;> decide

theorem patterns_disjoint (c : Config) (n : InstrName) :
    (descriptor c n).patterns.Pairwise fun p q => p.care &&& q.care = 0 := by
  rw [descriptor_patterns, ← List.pairwise_map (f := FieldPattern.care) (R := fun a b => a &&& b = 0),
    patternSet_map_care]
  refine (Format.cares_disjoint c.fillerPolicy n.format).sublist (List.Sublist.append_left ?_ _)
  cases n.funct c with
  | none => exact List.nil_sublist _
  | some v => exact List.Sublist.refl _

/-- A Word satisfies a descriptor iff the masked Word is the match value (R89, R151). -/
theorem matchesWord_iff_mask (c : Config) (n : InstrName) (w : Word) :
    (descriptor c n).matchesWord w = true ↔ w &&& (descriptor c n).mask = (descriptor c n).matchValue := by
  rw [Descriptor.mask, Descriptor.matchValue, and_foldl_care_eq_foldl_want_iff w _ 0 0 BitVec.and_zero
    (fun _ _ => BitVec.zero_and) (patterns_disjoint c n), Descriptor.matchesWord, List.all_eq_true]
  exact (and_iff_right BitVec.and_zero).symm

/-! ## The dispatcher (R151) -/

/-- Among the descriptors of a well-formed configuration, the one that a Word satisfies is dispatched. -/
theorem dispatch_of_matchesWord {c : Config} (hc : c.wf = true) {n : InstrName} {w : Word}
    (h : (descriptor c n).matchesWord w = true) : dispatch c w = some (descriptor c n) :=
  table_find c _ n (Config.wf_mem hc n) h fun _ hm => name_eq_of_matchesWord hc hm h

theorem decode_of_matchesWord {c : Config} (hc : c.wf = true) {n : InstrName} {w : Word}
    (h : (descriptor c n).matchesWord w = true) :
    decode c w = .ok n.mnemonic ((descriptor c n).extractOperands w) := by
  rw [decode, dispatch_of_matchesWord hc h]
  rfl

/-- Settles O22: no Word satisfies two descriptors, so the search finds the one it satisfies. -/
theorem decodeFollowsTheMatchingDescriptor : Obligations.DecodeFollowsTheMatchingDescriptor := by
  refine fun c w hc => ⟨fun n h => ⟨dispatch_of_matchesWord hc h, decode_of_matchesWord hc h⟩, fun h => ?_,
    fun n => matchesWord_iff_mask c n w⟩
  rw [decode, dispatch_eq_none w h]

/-! ## The operand positions of a format (R84, R146, R153) -/

/-- A descriptor declares the positions of its operand map. -/
theorem declares_iff (c : Config) (n : InstrName) (k : Position) :
    (descriptor c n).declares k = true ↔ ∃ f, (k, f) ∈ (descriptor c n).operandMap := by
  simp [Descriptor.declares, descriptor_slotTypes]

theorem Format.operandMap_nodup (fmt : Format) : (fmt.operandMap.map Prod.fst).Nodup := by
  cases fmt <;> decide

/-- The positions that each format declares, in increasing order. -/
theorem declared_positions (c : Config) (n : InstrName) :
    [Position.p1, .p2, .p3, .p4].filter (fun k => (descriptor c n).declares k) =
      match n.format with
      | .r1 => [.p1]
      | .r2 | .lui => [.p1, .p2]
      | .r3 | .i | .br | .ls => [.p1, .p2, .p3] := by
  cases n <;> rfl

/-! ## The extracted operands (R152, R153) -/

/-- Filling in operands leaves a position that is not among them. -/
theorem get_foldl_set_of_notMem (w : Word) {k : Position} :
    ∀ {l : List (Position × OperandField)} (ops : OperandList), (∀ f, (k, f) ∉ l) →
      (l.foldl (fun ops kf => ops.set kf.1 (kf.2.extract w)) ops).get k = ops.get k
  | [], _, _ => rfl
  | (j, g) :: l, ops, h => by
    have hkj : k ≠ j := fun hkj => h g (hkj ▸ List.mem_cons_self)
    rw [List.foldl_cons, get_foldl_set_of_notMem w _ fun f hf => h f (List.mem_cons_of_mem _ hf),
      OperandList.get_set, if_neg hkj]

/-- Filling in operands, no position twice, puts each where it belongs. -/
theorem get_foldl_set_of_mem (w : Word) {k : Position} {f : OperandField} :
    ∀ {l : List (Position × OperandField)} (ops : OperandList), (l.map Prod.fst).Nodup → (k, f) ∈ l →
      (l.foldl (fun ops kf => ops.set kf.1 (kf.2.extract w)) ops).get k = f.extract w
  | (j, g) :: l, ops, hl, hf => by
    obtain ⟨hj, hl⟩ := List.nodup_cons.mp hl
    rw [List.foldl_cons]
    obtain heq | hf := List.mem_cons.mp hf
    · obtain ⟨rfl, rfl⟩ := Prod.mk.inj heq
      rw [get_foldl_set_of_notMem w _ fun _ hf' => hj (List.mem_map.mpr ⟨_, hf', rfl⟩), OperandList.get_set,
        if_pos rfl]
    · exact get_foldl_set_of_mem w _ hl hf

theorem extractOperands_get_of_mem (c : Config) {n : InstrName} (w : Word) {k : Position} {f : OperandField}
    (h : (k, f) ∈ (descriptor c n).operandMap) : ((descriptor c n).extractOperands w).get k = f.extract w :=
  get_foldl_set_of_mem w _ n.format.operandMap_nodup h

theorem extractOperands_get_of_notMem (c : Config) {n : InstrName} (w : Word) {k : Position}
    (h : ∀ f, (k, f) ∉ (descriptor c n).operandMap) : ((descriptor c n).extractOperands w).get k = .empty :=
  (get_foldl_set_of_notMem w _ h).trans (OperandList.get_allEmpty k)

theorem OperandField.extract_ne_empty (f : OperandField) (w : Word) : f.extract w ≠ .empty := by
  cases f <;> nofun

/-- An extracted position is filled iff the descriptor declares it. -/
theorem extractOperands_get_ne_empty_iff (c : Config) (n : InstrName) (w : Word) (k : Position) :
    ((descriptor c n).extractOperands w).get k ≠ .empty ↔ (descriptor c n).declares k = true := by
  rw [declares_iff]
  constructor
  · intro h
    by_contra hk
    exact h (extractOperands_get_of_notMem c w (not_exists.mp hk))
  · rintro ⟨f, hf⟩
    rw [extractOperands_get_of_mem c w hf]
    exact f.extract_ne_empty w

/-- The operand count of a decoded Word is that of the format. -/
theorem extractOperands_count (c : Config) (n : InstrName) (w : Word) :
    ([Position.p1, .p2, .p3, .p4].filter fun k => ((descriptor c n).extractOperands w).get k ≠ .empty).length =
      match n.format with
      | .r3 | .i | .br | .ls => 3
      | .r2 | .lui => 2
      | .r1 => 1 := by
  simp only [extractOperands_get_ne_empty_iff, Bool.decide_eq_true, declared_positions]
  cases n.format <;> rfl

theorem Format.notMem_operandMap_p4 (fmt : Format) (f : OperandField) : (Position.p4, f) ∉ fmt.operandMap := by
  cases fmt <;> simp [Format.operandMap]

/-- Settles O23: the operand list is the one extracted, read position by position. -/
theorem decodedOperandsStandAtCanonicalPositions : Obligations.DecodedOperandsStandAtCanonicalPositions := by
  intro c n w hc h
  have hd := decode_of_matchesWord hc h
  refine ⟨_, hd, by rw [hd]; rfl, fun k r hk => extractOperands_get_of_mem c w hk,
    fun k hk => extractOperands_get_of_mem c w hk, fun k hk => extractOperands_get_of_notMem c w hk,
    extractOperands_get_of_notMem c w n.format.notMem_operandMap_p4, extractOperands_count c n w, ?_, ?_⟩
  · intro k r hr
    obtain he | ⟨r', hr'⟩ | ⟨v, hv⟩ := decode_get_cases hd k
    · rw [hr] at he; cases he
    · rw [hr] at hr'; cases hr'; exact regNum_le r'
    · rw [hr] at hv; cases hv
  · intro k v hv
    obtain he | ⟨r, hr⟩ | ⟨v', hv'⟩ := decode_get_cases hd k
    · rw [hv] at he; cases he
    · rw [hv] at hr; cases hr
    · rw [hv] at hv'; cases hv'; exact imm16_le v'

/-! ## Fields read after a write (R125, R126) -/

/-- No bit belongs to both fields. -/
abbrev BitField.Disjoint (f g : BitField) : Prop := f.highBit < g.lowBit ∨ g.highBit < f.lowBit

theorem BitField.Disjoint.symm {f g : BitField} (h : f.Disjoint g) : g.Disjoint f := Or.symm h

theorem getField_setField_same (w : Word) {f : BitField} {v : Nat} (hv : v < 2 ^ f.width) :
    getField (setField w f v) f = v :=
  (eq_iff_testBit_of_lt_two_pow (getField_lt _ f) hv).mpr fun k hk => by
    rw [getField_testBit_character _ f hk, setField_getLsbD_character w f v hk]

theorem getField_setField_of_disjoint (w : Word) {f g : BitField} (v : Nat) (h : f.Disjoint g) :
    getField (setField w f v) g = getField w g :=
  (eq_iff_testBit_of_lt_two_pow (getField_lt _ g) (getField_lt _ g)).mpr fun k hk => by
    have hg := g.bounds
    rw [getField_testBit_character _ g hk, getField_testBit_character _ g hk,
      setField_getLsbD_outside w f v (by omega) (by omega)]

@[simp] theorem getField_zero (f : BitField) : getField 0 f = 0 := by
  simp [getField]

/-- A field that reads 0 has a zero at each of its characters. -/
theorem getLsbD_character_of_getField_eq_zero {w : Word} {f : BitField} (h : getField w f = 0) {k : Nat}
    (hk : k < f.width) : w.getLsbD (f.highBit - k) = false := by
  rw [← getField_testBit_character w f hk, h, Nat.zero_testBit]

/-- A Word whose field reads 0 has no bit in common with one that it meets nowhere outside the field. -/
theorem and_eq_zero_of_getField_eq_zero {w u : Word} (f : BitField) (hw : getField w f = 0)
    (hout : ∀ i, i < 32 → (f.highBit < i ∨ i < f.lowBit) → (w &&& u).getLsbD i = false) : w &&& u = 0 := by
  refine BitVec.eq_of_getLsbD_eq fun i hi => Eq.trans ?_ BitVec.getLsbD_zero.symm
  obtain ho | ⟨k, hk, rfl⟩ := f.outside_or_character i
  · exact hout i hi ho
  · rw [BitVec.getLsbD_and, getLsbD_character_of_getField_eq_zero hw hk, Bool.false_and]

/-- A value that fits its field, moved up to it, has no bit in common with a Word whose field reads 0. -/
theorem and_shifted_eq_zero {w : Word} {f : BitField} {v : Nat} (hw : getField w f = 0) (hv : v < 2 ^ f.width) :
    w &&& BitVec.ofNat 32 (v * 2 ^ f.lowBit) = 0 :=
  and_eq_zero_of_getField_eq_zero f hw fun i hi hout => by
    rw [BitVec.getLsbD_and, ofNat_mul_two_pow_getLsbD_outside f hv hi hout, Bool.and_false]

/-- Writing a field that reads 0 sets the bits of the value, moved up to the field. -/
theorem setField_eq_or {w : Word} {f : BitField} {v : Nat} (hw : getField w f = 0) (hv : v < 2 ^ f.width) :
    setField w f v = w ||| BitVec.ofNat 32 (v * 2 ^ f.lowBit) := by
  refine BitVec.eq_of_getLsbD_eq fun i hi => ?_
  rw [BitVec.getLsbD_or]
  obtain hout | ⟨k, hk, rfl⟩ := f.outside_or_character i
  · rw [setField_getLsbD_outside w f v hi hout, ofNat_mul_two_pow_getLsbD_outside f hv hi hout, Bool.or_false]
  · rw [setField_getLsbD_character w f v hk, ofNat_mul_two_pow_getLsbD_character v f hk,
      getLsbD_character_of_getField_eq_zero hw hk, Bool.false_or]

theorem setField_eq_add {w : Word} {f : BitField} {v : Nat} (hw : getField w f = 0) (hv : v < 2 ^ f.width) :
    setField w f v = w + BitVec.ofNat 32 (v * 2 ^ f.lowBit) :=
  (setField_eq_or hw hv).trans (BitVec.add_eq_or_of_and_eq_zero _ _ (and_shifted_eq_zero hw hv)).symm

/-! ## A list of fields written one after the other -/

/-- The writes of R145, in order, from a Word. -/
def writeFields (w : Word) (l : List (BitField × Nat)) : Word := l.foldl (fun w fv => setField w fv.1 fv.2) w

/-- The sum of the values, each moved up to its field. -/
def fieldSum (l : List (BitField × Nat)) : Nat := (l.map fun fv => fv.2 * 2 ^ fv.1.lowBit).sum

/-- The fields are pairwise disjoint and every value fits its field. -/
structure Writable (l : List (BitField × Nat)) : Prop where
  disjoint : l.Pairwise fun a b => a.1.Disjoint b.1
  fits : ∀ fv ∈ l, fv.2 < 2 ^ fv.1.width

theorem Writable.perm {l l' : List (BitField × Nat)} (h : Writable l) (hp : l.Perm l') : Writable l' :=
  ⟨(hp.pairwise_iff fun hab => hab.symm).mp h.disjoint, fun fv hfv => h.fits fv (hp.mem_iff.mpr hfv)⟩

theorem Writable.sublist {l l' : List (BitField × Nat)} (h : Writable l) (hs : l'.Sublist l) : Writable l' :=
  ⟨h.disjoint.sublist hs, fun fv hfv => h.fits fv (hs.subset hfv)⟩

theorem getField_writeFields_of_disjoint {g : BitField} : ∀ {l : List (BitField × Nat)} (w : Word),
    (∀ fv ∈ l, fv.1.Disjoint g) → getField (writeFields w l) g = getField w g
  | [], _, _ => rfl
  | fv :: l, w, h => by
    obtain ⟨hfv, h⟩ := List.forall_mem_cons.mp h
    exact (getField_writeFields_of_disjoint (setField w fv.1 fv.2) h).trans (getField_setField_of_disjoint w fv.2 hfv)

theorem getField_writeFields_of_mem {f : BitField} {v : Nat} : ∀ {l : List (BitField × Nat)} (w : Word),
    Writable l → (f, v) ∈ l → getField (writeFields w l) f = v
  | fv :: l, w, h, hmem => by
    obtain ⟨hfv, -⟩ := List.pairwise_cons.mp h.disjoint
    obtain rfl | hmem := List.mem_cons.mp hmem
    · exact (getField_writeFields_of_disjoint _ fun b hb => (hfv b hb).symm).trans
        (getField_setField_same w (h.fits _ List.mem_cons_self))
    · exact getField_writeFields_of_mem (l := l) _ (h.sublist (List.sublist_cons_self fv l)) hmem

/-- Written on zeros, the fields add up. -/
theorem writeFields_eq_add : ∀ {l : List (BitField × Nat)} {w : Word}, Writable l →
    (∀ fv ∈ l, getField w fv.1 = 0) → writeFields w l = w + BitVec.ofNat 32 (fieldSum l)
  | [], w, _, _ => (BitVec.add_zero w).symm
  | fv :: l, w, h, hw => by
    obtain ⟨hfv, hw⟩ := List.forall_mem_cons.mp hw
    obtain ⟨hdisj, -⟩ := List.pairwise_cons.mp h.disjoint
    have hw' : ∀ b ∈ l, getField (setField w fv.1 fv.2) b.1 = 0 := fun b hb => by
      rw [getField_setField_of_disjoint w fv.2 (hdisj b hb), hw b hb]
    calc writeFields w (fv :: l)
        = writeFields (setField w fv.1 fv.2) l := rfl
      _ = setField w fv.1 fv.2 + BitVec.ofNat 32 (fieldSum l) :=
          writeFields_eq_add (h.sublist (List.sublist_cons_self fv l)) hw'
      _ = w + BitVec.ofNat 32 (fieldSum (fv :: l)) := by
          rw [setField_eq_add hfv (h.fits fv List.mem_cons_self), BitVec.add_assoc, ← BitVec.ofNat_add, fieldSum,
            fieldSum, List.map_cons, List.sum_cons]

theorem writeFields_zero_eq {l : List (BitField × Nat)} (h : Writable l) :
    writeFields 0 l = BitVec.ofNat 32 (fieldSum l) :=
  (writeFields_eq_add h fun fv _ => getField_zero fv.1).trans (BitVec.zero_add _)

theorem fieldSum_perm {l l' : List (BitField × Nat)} (h : l.Perm l') : fieldSum l = fieldSum l' :=
  (h.map _).sum_eq

/-- A Word whose fields read 0 has no bit in common with what is written to them. -/
theorem and_writeFields_eq_zero {w : Word} : ∀ {l : List (BitField × Nat)} {u : Word}, w &&& u = 0 →
    (∀ fv ∈ l, getField w fv.1 = 0) → w &&& writeFields u l = 0
  | [], _, hu, _ => hu
  | fv :: l, u, hu, hw => by
    obtain ⟨hfv, hw⟩ := List.forall_mem_cons.mp hw
    have hfirst : w &&& setField u fv.1 fv.2 = 0 := and_eq_zero_of_getField_eq_zero fv.1 hfv fun i hi hout => by
      rw [BitVec.getLsbD_and, setField_getLsbD_outside u fv.1 fv.2 hi hout, ← BitVec.getLsbD_and, hu]
      exact BitVec.getLsbD_zero
    exact and_writeFields_eq_zero (l := l) hfirst hw

/-- Written on zeros, the fields are a bitwise OR of the Word with their sum. -/
theorem writeFields_eq_or {l : List (BitField × Nat)} {w : Word} (h : Writable l)
    (hw : ∀ fv ∈ l, getField w fv.1 = 0) : writeFields w l = w ||| BitVec.ofNat 32 (fieldSum l) := by
  rw [writeFields_eq_add h hw, BitVec.add_eq_or_of_and_eq_zero]
  rw [← writeFields_zero_eq h]
  exact and_writeFields_eq_zero BitVec.and_zero hw

/-! ## What packing writes (R145) -/

/-- The function constant, where the descriptor has one, at its field. -/
def Descriptor.functWrites (d : Descriptor) : List (BitField × Nat) :=
  (d.funct.map fun v => (functField, v.toNat)).toList

theorem Descriptor.mem_functWrites {d : Descriptor} {fv : BitField × Nat} :
    fv ∈ d.functWrites ↔ ∃ v, d.funct = some v ∧ (functField, v.toNat) = fv := by
  rw [Descriptor.functWrites, Option.mem_toList, Option.map_eq_some_iff]

/-- The constants of a descriptor, at their fields. -/
def Descriptor.constantWrites (d : Descriptor) : List (BitField × Nat) :=
  (opcodeField, d.opcode.toNat) :: d.functWrites

/-- An operand of a request, at its field. -/
def operandWrite (ops : OperandList) (kf : Position × OperandField) : BitField × Nat :=
  (kf.2.field, (ops.get kf.1).value)

/-- The operands of a request, at their fields. -/
def Descriptor.operandWrites (d : Descriptor) (ops : OperandList) : List (BitField × Nat) :=
  d.operandMap.map (operandWrite ops)

/-- Whether a position maps to a register field. -/
def OperandField.isReg : OperandField → Bool
  | .reg _ => true
  | .imm => false

/-- The writes in R145's order: opcode, registers, immediate, function constant. -/
def Descriptor.packWrites (d : Descriptor) (ops : OperandList) : List (BitField × Nat) :=
  (opcodeField, d.opcode.toNat) ::
    ((d.operandMap.filter fun kf => kf.2.isReg).map (operandWrite ops) ++
      (d.operandMap.filter fun kf => !kf.2.isReg).map (operandWrite ops) ++ d.functWrites)

theorem setFieldLiteral_opcode (w : Word) (v : BitVec 6) :
    setFieldLiteral w (opcodeLiteral v) = setField w opcodeField v.toNat :=
  congrArg (setField w opcodeField) (bits6_value v)

theorem setFieldLiteral_funct (w : Word) (v : BitVec 6) :
    setFieldLiteral w (functLiteral v) = setField w functField v.toNat :=
  congrArg (setField w functField) (bits6_value v)

theorem Descriptor.packRegisters_eq (d : Descriptor) (ops : OperandList) (w : Word) : d.packRegisters ops w =
    writeFields w ((d.operandMap.filter fun kf => kf.2.isReg).map (operandWrite ops)) := by
  rw [writeFields, List.foldl_map, List.foldl_filter]
  refine List.foldl_ext _ _ _ fun w kf _ => ?_
  obtain ⟨k, f⟩ := kf
  cases f <;> rfl

theorem Descriptor.packImmediate_eq (d : Descriptor) (ops : OperandList) (w : Word) : d.packImmediate ops w =
    writeFields w ((d.operandMap.filter fun kf => !kf.2.isReg).map (operandWrite ops)) := by
  rw [writeFields, List.foldl_map, List.foldl_filter]
  refine List.foldl_ext _ _ _ fun w kf _ => ?_
  obtain ⟨k, f⟩ := kf
  cases f <;> rfl

theorem Descriptor.packFunct_eq (d : Descriptor) (w : Word) :
    d.packFunct w = writeFields w d.functWrites := by
  rw [Descriptor.packFunct, Descriptor.functWrites]
  cases d.funct with
  | none => rfl
  | some v => exact setFieldLiteral_funct w v

theorem writeFields_append (w : Word) (l l' : List (BitField × Nat)) :
    writeFields w (l ++ l') = writeFields (writeFields w l) l' := List.foldl_append

theorem Descriptor.pack_eq (d : Descriptor) (ops : OperandList) : d.pack ops = writeFields 0 (d.packWrites ops) := by
  rw [Descriptor.pack, d.packFunct_eq, d.packImmediate_eq, d.packRegisters_eq, setFieldLiteral_opcode,
    ← writeFields_append, ← writeFields_append, ← List.append_assoc]
  rfl

theorem Descriptor.packWrites_perm (d : Descriptor) (ops : OperandList) :
    (d.packWrites ops).Perm (d.constantWrites ++ d.operandWrites ops) := by
  refine List.Perm.cons _ ((List.perm_append_comm).trans (List.Perm.append_left _ ?_))
  rw [← List.map_append]
  exact (List.filter_append_perm _ d.operandMap).map _

/-! ## The written fields are disjoint, and the values of a valid request fit them -/

/-- The fields that hold a name's constants. -/
def InstrName.constantFields (n : InstrName) : List BitField :=
  opcodeField :: if n.opcode = 0 then [functField] else []

/-- The fields that hold a format's operands. -/
def Format.operandFields (fmt : Format) : List BitField := fmt.operandMap.map fun kf => kf.2.field

/-- Fillers, constants and operands stand at different bits. -/
theorem InstrName.fields_disjoint (n : InstrName) :
    (fillerFields n.format.fields ++ (n.constantFields ++ n.format.operandFields)).Pairwise BitField.Disjoint := by
  cases n <;> decide

theorem constantWrites_fields (c : Config) (n : InstrName) :
    (descriptor c n).constantWrites.map Prod.fst = n.constantFields := by
  cases n <;> rfl

theorem operandWrites_fields (c : Config) (n : InstrName) (ops : OperandList) :
    ((descriptor c n).operandWrites ops).map Prod.fst = n.format.operandFields := by
  rw [Descriptor.operandWrites, List.map_map]
  rfl

theorem RegField.field_width (r : RegField) : r.field.width = 5 := by cases r <;> rfl

theorem ImmPolicy.max_le (policy : ImmPolicy) : policy.max ≤ 0xFFFF := by cases policy <;> decide

/-- A valid operand fits the field it goes to. -/
theorem OperandField.value_lt_of_validFor : ∀ {f : OperandField} {policy : ImmPolicy} {o : Operand},
    o.validFor policy f.slotType = true → o.value < 2 ^ f.field.width
  | .reg r, _, .register n, h => by
    have hn : n ≤ 31 := of_decide_eq_true h
    rw [OperandField.field, r.field_width]
    exact Nat.lt_succ_of_le hn
  | .imm, policy, .immediate v, h => by
    have hv : v ≤ policy.max := of_decide_eq_true h
    exact Nat.lt_succ_of_le (hv.trans policy.max_le)

theorem validFor_of_validOperands {c : Config} {n : InstrName} {ops : OperandList}
    (h : (descriptor c n).validOperands ops = true) {k : Position} {f : OperandField}
    (hf : (k, f) ∈ (descriptor c n).operandMap) : (ops.get k).validFor (c.immPolicy n) f.slotType = true :=
  List.all_eq_true.mp h (k, f.slotType) (List.mem_map.mpr ⟨_, hf, rfl⟩)

theorem constantWrites_fits (d : Descriptor) : ∀ fv ∈ d.constantWrites, fv.2 < 2 ^ fv.1.width := by
  rintro fv (_ | ⟨_, hfv⟩)
  · exact d.opcode.isLt
  · obtain ⟨v, -, rfl⟩ := Descriptor.mem_functWrites.mp hfv
    exact v.isLt

theorem writes_writable {c : Config} {n : InstrName} {ops : OperandList}
    (h : (descriptor c n).validOperands ops = true) :
    Writable ((descriptor c n).constantWrites ++ (descriptor c n).operandWrites ops) where
  disjoint := by
    have hd := (List.pairwise_append.mp n.fields_disjoint).2.1
    rwa [← constantWrites_fields c, ← operandWrites_fields c n ops, ← List.map_append, List.pairwise_map] at hd
  fits fv hfv := by
    obtain hfv | hfv := List.mem_append.mp hfv
    · exact constantWrites_fits _ fv hfv
    · obtain ⟨⟨k, f⟩, hkf, rfl⟩ := List.mem_map.mp hfv
      exact OperandField.value_lt_of_validFor (validFor_of_validOperands h hkf)

theorem packWrites_writable {c : Config} {n : InstrName} {ops : OperandList}
    (h : (descriptor c n).validOperands ops = true) : Writable ((descriptor c n).packWrites ops) :=
  (writes_writable h).perm ((descriptor c n).packWrites_perm ops).symm

/-! ## The packed Word (R145) -/

/-- Written on zeros, disjoint fields give one Word in whatever order. -/
theorem writeFields_zero_perm {l l' : List (BitField × Nat)} (h : Writable l) (hp : l.Perm l') :
    writeFields 0 l = writeFields 0 l' := by
  rw [writeFields_zero_eq h, writeFields_zero_eq (h.perm hp), fieldSum_perm hp]

theorem foldl_want_of_want_zero : ∀ {ps : List FieldPattern} (v : Word), (∀ p ∈ ps, p.want = 0) →
    ps.foldl (fun v p => v ||| p.want) v = v
  | [], _, _ => rfl
  | p :: ps, v, h => by
    obtain ⟨hp, h⟩ := List.forall_mem_cons.mp h
    rw [List.foldl_cons, foldl_want_of_want_zero _ h, hp]
    exact BitVec.or_zero

/-- What either policy asks of the fillers is that they are zero (R88, R98). -/
theorem eq_zeroPattern_of_mem_fillerPatterns {policy : FillerPolicy} {fields : List FieldDecl} {p : FieldPattern}
    (h : p ∈ fillerPatterns policy fields) : ∃ f ∈ fillerFields fields, zeroPattern f = p := by
  cases policy with
  | strict => exact List.mem_map.mp h
  | lenient => exact absurd h List.not_mem_nil

theorem descriptor_funct (c : Config) (n : InstrName) : (descriptor c n).funct = n.funct c := rfl

/-- The match value is the constants, written on zeros: the fillers want none. -/
theorem matchValue_eq_writeFields (c : Config) (n : InstrName) :
    (descriptor c n).matchValue = writeFields 0 (descriptor c n).constantWrites := by
  have hfill : ∀ p ∈ fillerPatterns c.fillerPolicy n.format.fields, p.want = 0 := fun p hp => by
    obtain ⟨f, -, rfl⟩ := eq_zeroPattern_of_mem_fillerPatterns hp
    exact zeroPattern_want f
  have hop : setField 0 opcodeField n.opcode.toNat = 0 ||| (opcodeLiteral n.opcode).toPattern.want := by
    rw [setField_eq_or (getField_zero _) n.opcode.isLt, opcodePattern_want]
  rw [Descriptor.matchValue, descriptor_patterns, patternSet, List.foldl_append, List.foldl_cons,
    foldl_want_of_want_zero _ hfill, ← hop]
  show _ = writeFields (setField 0 opcodeField n.opcode.toNat) (descriptor c n).functWrites
  rw [Descriptor.functWrites, descriptor_funct]
  cases n.funct c with
  | none => rfl
  | some v =>
    have hclear : getField (setField 0 opcodeField n.opcode.toNat) functField = 0 :=
      (getField_setField_of_disjoint 0 _ (.inr (by decide))).trans (getField_zero _)
    show _ ||| (functLiteral v).toPattern.want = setField _ functField v.toNat
    rw [functPattern_want, setField_eq_or hclear v.isLt]

/-- Packing a valid request is the match value OR the sum of its operands. -/
theorem pack_eq_or {c : Config} {n : InstrName} {ops : OperandList} (h : (descriptor c n).validOperands ops = true) :
    (descriptor c n).pack ops =
      (descriptor c n).matchValue ||| BitVec.ofNat 32 (fieldSum ((descriptor c n).operandWrites ops)) := by
  have hw := writes_writable h
  have hclear : ∀ fv ∈ (descriptor c n).operandWrites ops, getField (descriptor c n).matchValue fv.1 = 0 :=
    fun fv hfv => by
      rw [matchValue_eq_writeFields, getField_writeFields_of_disjoint 0 fun a ha =>
        (List.pairwise_append.mp hw.disjoint).2.2 a ha fv hfv, getField_zero]
  rw [Descriptor.pack_eq, writeFields_zero_perm (packWrites_writable h) ((descriptor c n).packWrites_perm ops),
    writeFields_append, ← matchValue_eq_writeFields,
    writeFields_eq_or (hw.sublist (List.sublist_append_right _ _)) hclear]

/-- Settles O19: the writes commute, so the operands may be written last, on a Word whose operand fields are zero. -/
theorem packingIsMatchValueOrOperandSum : Obligations.PackingIsMatchValueOrOperandSum := by
  intro c n ops hc h
  rw [encode_mnemonic hc, ((descriptor c n).encode_eq_ok_iff ops _).mpr ⟨h, rfl⟩, pack_eq_or h, fieldSum,
    Descriptor.operandWrites, List.map_map]
  rfl

/-! ## Undeclared positions (R146) -/

/-- The type of each slot with the operand that stands in it: all that steps 2 to 4 look at. -/
def Descriptor.slotOperands (d : Descriptor) (ops : OperandList) : List (SlotType × Operand) :=
  d.slotTypes.map fun kt => (kt.2, ops.get kt.1)

theorem Descriptor.typeError_eq_findSome (d : Descriptor) (ops : OperandList) :
    d.typeError ops = (d.slotOperands ops).findSome? fun slot => slotError slot.1 slot.2 := by
  rw [Descriptor.slotOperands, List.findSome?_map]
  rfl

theorem Descriptor.regOutOfRange_eq_any (d : Descriptor) (ops : OperandList) : d.regOutOfRange ops =
    (d.slotOperands ops).any fun slot => slot.1 == .register && decide (slot.2.value > regMax) := by
  rw [Descriptor.slotOperands, List.any_map]
  rfl

theorem Descriptor.immOutOfRange_eq_any (d : Descriptor) (ops : OperandList) : d.immOutOfRange ops =
    (d.slotOperands ops).any fun slot => slot.1 == .immediate && decide (slot.2.value > d.immPolicy.max) := by
  rw [Descriptor.slotOperands, List.any_map]
  rfl

/-- The result depends on the slots' operands and on the operands packed. -/
theorem Descriptor.encode_congr {d : Descriptor} {ops ops' : OperandList}
    (hslot : d.slotOperands ops = d.slotOperands ops') (hpack : d.pack ops = d.pack ops') :
    d.encode ops = d.encode ops' := by
  simp only [Descriptor.encode, Descriptor.typeError_eq_findSome, Descriptor.regOutOfRange_eq_any,
    Descriptor.immOutOfRange_eq_any, hslot, hpack]

theorem declares_of_mem {c : Config} {n : InstrName} {kf : Position × OperandField}
    (h : kf ∈ (descriptor c n).operandMap) : (descriptor c n).declares kf.1 = true :=
  (declares_iff c n kf.1).mpr ⟨kf.2, h⟩

theorem slotOperands_congr {c : Config} {n : InstrName} {ops ops' : OperandList}
    (h : ∀ k, (descriptor c n).declares k = true → ops.get k = ops'.get k) :
    (descriptor c n).slotOperands ops = (descriptor c n).slotOperands ops' :=
  List.map_congr_left fun kt hkt => by
    obtain ⟨kf, hkf, rfl⟩ := List.mem_map.mp hkt
    rw [h kf.1 (declares_of_mem hkf)]

theorem pack_congr {c : Config} {n : InstrName} {ops ops' : OperandList}
    (h : ∀ k, (descriptor c n).declares k = true → ops.get k = ops'.get k) :
    (descriptor c n).pack ops = (descriptor c n).pack ops' := by
  have hmap : ∀ l ⊆ (descriptor c n).operandMap, l.map (operandWrite ops) = l.map (operandWrite ops') := fun l hl =>
    List.map_congr_left fun kf hkf => by rw [operandWrite, h kf.1 (declares_of_mem (hl hkf)), operandWrite]
  rw [Descriptor.pack_eq, Descriptor.packWrites, hmap _ (List.filter_subset_self _), hmap _ (List.filter_subset_self _),
    Descriptor.pack_eq, Descriptor.packWrites]

/-- Settles O20: what the checks look at and what is packed stand in declared positions. -/
theorem undeclaredPositionsAreNotExamined : Obligations.UndeclaredPositionsAreNotExamined := by
  refine ⟨fun c n ops ops' h => ?_, declared_positions⟩
  obtain hl | hl := lookup_mnemonic_cases c n
  · rw [encode, encode, hl]
  · rw [encode, encode, hl]
    exact Descriptor.encode_congr (slotOperands_congr h) (pack_congr h)

/-! ## Round trip (R160) -/

theorem matchField_zeroPattern {w : Word} {f : BitField} (h : getField w f = 0) :
    matchField w (zeroPattern f) = true := by
  refine (matchField_iff w (zeroPattern f)).mpr fun i hi => ?_
  have hb : (zeroPattern f).bits[i] = PatBit.b0 := List.getElem_replicate _
  have hif : i < f.width := hi.trans_eq List.length_replicate
  rw [hb]
  exact ⟨fun _ => getLsbD_character_of_getField_eq_zero h hif, nofun⟩

/-- A Word satisfies a descriptor if its constant fields hold the constants and its fillers are zero. -/
theorem matchesWord_of_getField {c : Config} {n : InstrName} {w : Word}
    (hconst : ∀ fv ∈ (descriptor c n).constantWrites, getField w fv.1 = fv.2)
    (hfill : ∀ f ∈ fillerFields n.format.fields, getField w f = 0) : (descriptor c n).matchesWord w = true := by
  refine List.all_eq_true.mpr fun p hp => ?_
  rw [descriptor_patterns, patternSet] at hp
  obtain hp | hp := List.mem_append.mp hp
  · obtain rfl | hp := List.mem_cons.mp hp
    · exact (matchField_toPattern_iff w _).mpr ((hconst _ List.mem_cons_self).trans (bits6_value _).symm)
    · obtain ⟨f, hf, rfl⟩ := eq_zeroPattern_of_mem_fillerPatterns hp
      exact matchField_zeroPattern (hfill f hf)
  · obtain ⟨v, hv, rfl⟩ := Option.map_eq_some_iff.mp (Option.mem_toList.mp hp)
    have hmem : (functField, v.toNat) ∈ (descriptor c n).constantWrites :=
      List.mem_cons_of_mem _ (Descriptor.mem_functWrites.mpr ⟨v, hv, rfl⟩)
    exact (matchField_toPattern_iff w _).mpr ((hconst _ hmem).trans (bits6_value v).symm)

/-- The packed Word reads back, at each field written, as what was written. -/
theorem getField_pack {c : Config} {n : InstrName} {ops : OperandList} (h : (descriptor c n).validOperands ops = true)
    {fv : BitField × Nat} (hfv : fv ∈ (descriptor c n).constantWrites ++ (descriptor c n).operandWrites ops) :
    getField ((descriptor c n).pack ops) fv.1 = fv.2 := by
  rw [Descriptor.pack_eq]
  exact getField_writeFields_of_mem 0 (packWrites_writable h) (((descriptor c n).packWrites_perm ops).mem_iff.mpr hfv)

/-- Packing leaves the fillers zero. -/
theorem getField_pack_filler (c : Config) {n : InstrName} (ops : OperandList) {f : BitField}
    (hf : f ∈ fillerFields n.format.fields) : getField ((descriptor c n).pack ops) f = 0 := by
  rw [Descriptor.pack_eq, getField_writeFields_of_disjoint 0 fun fv hfv => ?_, getField_zero]
  have hmem : fv.1 ∈ n.constantFields ++ n.format.operandFields := by
    rw [← constantWrites_fields c, ← operandWrites_fields c n ops, ← List.map_append]
    exact List.mem_map_of_mem (((descriptor c n).packWrites_perm ops).mem_iff.mp hfv)
  exact ((List.pairwise_append.mp n.fields_disjoint).2.2 f hf fv.1 hmem).symm

/-- The packed Word satisfies its descriptor. -/
theorem matchesWord_pack {c : Config} {n : InstrName} {ops : OperandList}
    (h : (descriptor c n).validOperands ops = true) :
    (descriptor c n).matchesWord ((descriptor c n).pack ops) = true :=
  matchesWord_of_getField (fun _ hfv => getField_pack h (List.mem_append_left _ hfv))
    fun _ => getField_pack_filler c ops

theorem OperandField.extract_eq_of_validFor {w : Word} : ∀ {f : OperandField} {policy : ImmPolicy} {o : Operand},
    o.validFor policy f.slotType = true → getField w f.field = o.value → f.extract w = o
  | .reg _, _, .register _, _, h => congrArg Operand.register h
  | .imm, _, .immediate _, _, h => congrArg Operand.immediate h

theorem OperandList.ext_get {a b : OperandList} (h : ∀ k, a.get k = b.get k) : a = b :=
  OperandList.mk.injEq .. ▸ ⟨h .p1, h .p2, h .p3, h .p4⟩

theorem Descriptor.normalise_get (d : Descriptor) (ops : OperandList) (k : Position) :
    (d.normalise ops).get k = if d.declares k then ops.get k else .empty := by
  cases k <;> rfl

/-- What is extracted from the packed Word is the request, normalised. -/
theorem extractOperands_pack {c : Config} {n : InstrName} {ops : OperandList}
    (h : (descriptor c n).validOperands ops = true) :
    (descriptor c n).extractOperands ((descriptor c n).pack ops) = (descriptor c n).normalise ops := by
  refine OperandList.ext_get fun k => ?_
  rw [Descriptor.normalise_get]
  by_cases hk : ∃ f, (k, f) ∈ (descriptor c n).operandMap
  · obtain ⟨f, hf⟩ := hk
    have hread : getField ((descriptor c n).pack ops) f.field = (ops.get k).value :=
      getField_pack h (List.mem_append_right _ (List.mem_map_of_mem (f := operandWrite ops) hf))
    rw [extractOperands_get_of_mem c _ hf, if_pos (declares_of_mem hf),
      OperandField.extract_eq_of_validFor (validFor_of_validOperands h hf) hread]
  · rw [extractOperands_get_of_notMem c _ (not_exists.mp hk), if_neg ((declares_iff c n k).not.mpr hk)]

/-- Settles O24: the packed Word satisfies its descriptor, and each declared field reads back as its operand. -/
theorem decodeAfterEncodeGivesTheRequestBack : Obligations.DecodeAfterEncodeGivesTheRequestBack := by
  intro c n ops hc
  rw [encode_mnemonic hc]
  simp only [Descriptor.encode_eq_ok_iff]
  refine ⟨⟨fun h => ⟨_, h, rfl⟩, fun ⟨_, h, _⟩ => h⟩, ?_⟩
  rintro w ⟨h, rfl⟩
  rw [decode_of_matchesWord hc (matchesWord_pack h), extractOperands_pack h]

end Sys2Proof

/-! # Proofs of the statements on the three-register instructions (42_rtype_3reg.md R180) -/

namespace Sys2Proof

/-! ## Decoding to a given mnemonic (R151, R152) -/

theorem getField_eq_extractLsb' (w : Word) (f : BitField) :
    getField w f = (w.extractLsb' f.lowBit f.width).toNat := by
  rw [BitVec.extractLsb'_toNat, Nat.shiftRight_eq_div_pow, getField]

/-- A Word decodes to a mnemonic iff it satisfies that mnemonic's descriptor, and to the operands extracted. -/
theorem decode_eq_ok_iff {c : Config} (hc : c.wf = true) (n : InstrName) (w : Word) (ops : OperandList) :
    decode c w = .ok n.mnemonic ops ↔
      (descriptor c n).matchesWord w = true ∧ ops = (descriptor c n).extractOperands w := by
  constructor
  · intro h
    rw [decode] at h
    cases hd : dispatch c w with
    | none => rw [hd] at h; cases h
    | some d =>
      obtain ⟨n', rfl, hm⟩ := dispatch_eq_some hd
      rw [hd] at h
      obtain ⟨hname, hops⟩ := DecResult.ok.inj h
      obtain rfl := InstrName.mnemonic_injective hname
      exact ⟨hm, hops.symm⟩
  · rintro ⟨hm, rfl⟩
    exact decode_of_matchesWord hc hm

/-! ## Encoding: formats whose slots all hold registers, and the packed Word as one sum (R142, R145) -/

@[simp] theorem Operand.value_register (r : Nat) : (Operand.register r).value = r := rfl

theorem Operand.hasType_register_iff (o : Operand) : o.hasType .register = true ↔ ∃ r, o = .register r := by
  cases o <;> simp [Operand.hasType]

/-- Where every slot expects a register, a wrongly typed operand can only be a missing register. -/
theorem Descriptor.encode_missingReg {d : Descriptor} {ops : OperandList}
    (hslots : ∀ kt ∈ d.slotTypes, kt.2 = .register)
    (h : ¬ ∀ kt ∈ d.slotTypes, (ops.get kt.1).hasType kt.2 = true) : d.encode ops = .fail .missingReg := by
  cases herr : d.typeError ops with
  | none => exact absurd ((d.typeError_eq_none ops).mp herr) h
  | some o =>
    obtain ⟨⟨k, t⟩, hmem, hkt⟩ := List.exists_of_findSome?_eq_some herr
    obtain rfl : t = .register := hslots _ hmem
    have htype : (ops.get k).hasType .register = false := by
      rw [← Bool.not_eq_true, ← slotError_eq_none, hkt]
      exact Option.some_ne_none o
    obtain rfl : SlotType.wrongTypeOutcome .register = o :=
      Option.some.inj ((slotError_of_wrongType htype).symm.trans hkt)
    rw [Descriptor.encode, herr]
    rfl

/-- Packing a valid request adds the constants and the operands, each moved up to its field. -/
theorem pack_eq_ofNat_sum {c : Config} {n : InstrName} {ops : OperandList}
    (h : (descriptor c n).validOperands ops = true) : (descriptor c n).pack ops =
      BitVec.ofNat 32 (fieldSum (descriptor c n).constantWrites + n.format.operandSum ops) := by
  rw [Descriptor.pack_eq, writeFields_zero_eq (packWrites_writable h),
    fieldSum_perm ((descriptor c n).packWrites_perm ops), fieldSum, List.map_append, List.sum_append, ← fieldSum,
    Descriptor.operandWrites, List.map_map]
  rfl

/-! ## Format R3 (R72) -/

section
variable {c : Config} {n : InstrName} (hn : n.format = .r3)
include hn

theorem slotTypes_r3 :
    (descriptor c n).slotTypes = [(.p1, .register), (.p2, .register), (.p3, .register)] := by
  rw [descriptor_slotTypes, hn]
  rfl

theorem extractOperands_r3 (w : Word) : (descriptor c n).extractOperands w =
    ⟨.register (getField w rdField), .register (getField w rsField), .register (getField w rtField), .empty⟩ := by
  rw [Descriptor.extractOperands, descriptor_operandMap, hn]
  rfl

theorem opcode_r3 : n.opcode = 0 :=
  (by decide : ∀ n ∈ InstrName.all, n.format = .r3 → n.opcode = 0) n n.mem_all hn

/-- The constants of format R3: opcode 0, and the function constant in the lowest bits. -/
theorem constantSum_r3 {v : BitVec 6} (hv : n.funct c = some v) :
    fieldSum (descriptor c n).constantWrites = v.toNat := by
  have hwrites : (descriptor c n).constantWrites = [(opcodeField, 0), (functField, v.toNat)] := by
    rw [Descriptor.constantWrites, Descriptor.functWrites, descriptor_funct, hv]
    show [(opcodeField, n.opcode.toNat), (functField, v.toNat)] = _
    rw [opcode_r3 hn]
    rfl
  rw [hwrites]
  simp [fieldSum]

theorem typed_r3_iff (ops : OperandList) :
    (∀ kt ∈ (descriptor c n).slotTypes, (ops.get kt.1).hasType kt.2 = true) ↔
      (∃ rd, ops.op1 = .register rd) ∧ (∃ rs, ops.op2 = .register rs) ∧ ∃ rt, ops.op3 = .register rt := by
  simp [slotTypes_r3 hn, OperandList.get, Operand.hasType_register_iff]

theorem regOutOfRange_r3_iff (ops : OperandList) : (descriptor c n).regOutOfRange ops = true ↔
    ops.op1.value > 31 ∨ ops.op2.value > 31 ∨ ops.op3.value > 31 := by
  rw [Descriptor.regOutOfRange_iff]
  simp [slotTypes_r3 hn, OperandList.get, or_and_right, exists_or]

theorem immOutOfRange_r3 (ops : OperandList) : (descriptor c n).immOutOfRange ops = false := by
  simp [Descriptor.immOutOfRange_eq_false_iff, slotTypes_r3 hn]

/-- The packed Word of format R3, its fields from the top. -/
theorem pack_r3 {v : BitVec 6} (hv : n.funct c = some v) {ops : OperandList}
    (h : (descriptor c n).validOperands ops = true) : (descriptor c n).pack ops = BitVec.ofNat 32
      (ops.op2.value * 2 ^ 21 + ops.op3.value * 2 ^ 16 + ops.op1.value * 2 ^ 11 + v.toNat) := by
  rw [pack_eq_ofNat_sum h, constantSum_r3 hn hv, hn, Format.operandSum_r3]
  congr 1
  omega

/-- Encoding three registers in format R3: the range check, then the packed sum. -/
theorem encode_r3_registers (hc : c.wf = true) {v : BitVec 6} (hv : n.funct c = some v) {ops : OperandList}
    {rd rs rt : Nat} (h1 : ops.op1 = .register rd) (h2 : ops.op2 = .register rs) (h3 : ops.op3 = .register rt) :
    encode c n.mnemonic ops = if rd > 31 ∨ rs > 31 ∨ rt > 31 then .fail .invalidReg
      else .ok (BitVec.ofNat 32 (rs * 2 ^ 21 + rt * 2 ^ 16 + rd * 2 ^ 11 + v.toNat)) := by
  have htyped := (typed_r3_iff (c := c) hn ops).mpr ⟨⟨rd, h1⟩, ⟨rs, h2⟩, ⟨rt, h3⟩⟩
  have hreg : (descriptor c n).regOutOfRange ops = true ↔ rd > 31 ∨ rs > 31 ∨ rt > 31 := by
    rw [regOutOfRange_r3_iff hn, h1, h2, h3]
    exact Iff.rfl
  have himm : (descriptor c n).immOutOfRange ops = false := immOutOfRange_r3 hn ops
  rw [encode_mnemonic hc, Descriptor.encode_of_typed htyped, himm, if_neg Bool.false_ne_true]
  simp only [hreg]
  split
  · rfl
  · next hle =>
    have hvalid : (descriptor c n).validOperands ops = true :=
      ((descriptor c n).validOperands_iff ops).mpr
        ⟨((descriptor c n).typeError_eq_none ops).mpr htyped, Bool.eq_false_iff.mpr (mt hreg.mp hle), himm⟩
    rw [pack_r3 hn hv hvalid, h1, h2, h3, Operand.value_register, Operand.value_register, Operand.value_register]

/-- Format R3 with any other operand in its three positions: `MISSING_REG`. -/
theorem encode_r3_missingReg (hc : c.wf = true) {ops : OperandList} (h : ∀ rd rs rt, ops.op1 = .register rd →
    ops.op2 = .register rs → ops.op3 = .register rt → False) : encode c n.mnemonic ops = .fail .missingReg := by
  rw [encode_mnemonic hc]
  refine Descriptor.encode_missingReg (by simp [slotTypes_r3 hn]) fun htyped => ?_
  obtain ⟨⟨rd, h1⟩, ⟨rs, h2⟩, ⟨rt, h3⟩⟩ := (typed_r3_iff hn ops).mp htyped
  exact h rd rs rt h1 h2 h3

end

/-- Settles O29: `ADD` is the name of format R3 with function constant `100000`. -/
theorem addEncodesAndDecodes : Obligations.AddEncodesAndDecodes := by
  refine ⟨fun ops => ?_, fun w ops => ?_⟩
  · split
    · next h1 h2 h3 => exact encode_r3_registers (n := .add) rfl hardware_wf rfl h1 h2 h3
    · next h => exact encode_r3_missingReg (n := .add) rfl hardware_wf h
  · have hmask : (descriptor hardware .add).mask = 0xFC0007FF#32 := by decide
    have hmatch : (descriptor hardware .add).matchValue = 0x00000020#32 := by decide
    rw [decode_eq_ok_iff hardware_wf, matchesWord_iff_mask, hmask, hmatch, extractOperands_r3 rfl,
      getField_eq_extractLsb', getField_eq_extractLsb', getField_eq_extractLsb']
    exact Iff.rfl

end Sys2Proof

/-! # Proofs of the statements on the two-register instructions (43_rtype_2reg.md R190, R191) -/

namespace Sys2Proof

/-! ## Names with a function constant: opcode 0 (R80, R81) -/

section
variable {c : Config} {n : InstrName} {v : BitVec 6} (hv : n.funct c = some v)
include hv

theorem InstrName.opcode_eq_zero_of_funct : n.opcode = 0 := by
  cases n with
  | add | and | or | sub | slt | div | mult | mfhi | mflo => rfl
  | addi | slti | lui | beq | bne | lw | sw => exact absurd hv (Option.some_ne_none v).symm

/-- The opcode adds nothing, and the function constant stands in the lowest bits. -/
theorem constantSum_of_funct : fieldSum (descriptor c n).constantWrites = v.toNat := by
  have hop : (descriptor c n).opcode = 0 := InstrName.opcode_eq_zero_of_funct hv
  rw [Descriptor.constantWrites, Descriptor.functWrites, descriptor_funct, hv, hop]
  simp [fieldSum]

end

/-! ## The match value as one sum (R89) -/

theorem constantWrites_writable (c : Config) (n : InstrName) : Writable (descriptor c n).constantWrites where
  disjoint := by
    have hd := (List.pairwise_append.mp (List.pairwise_append.mp n.fields_disjoint).2.1).1
    rwa [← constantWrites_fields c, List.pairwise_map] at hd
  fits := constantWrites_fits _

theorem matchValue_eq_ofNat_sum (c : Config) (n : InstrName) :
    (descriptor c n).matchValue = BitVec.ofNat 32 (fieldSum (descriptor c n).constantWrites) := by
  rw [matchValue_eq_writeFields, writeFields_zero_eq (constantWrites_writable c n)]

/-! ## Encoding typed operands where every slot holds a register (R143, R145) -/

theorem Descriptor.immOutOfRange_of_registerSlots {d : Descriptor} (hslots : ∀ kt ∈ d.slotTypes, kt.2 = .register)
    (ops : OperandList) : d.immOutOfRange ops = false :=
  (d.immOutOfRange_eq_false_iff ops).mpr fun _ hk => nomatch hslots _ hk

/-- With registers in all the slots, only the register range check is left before packing. -/
theorem encode_of_registerSlots {c : Config} (hc : c.wf = true) {n : InstrName} {ops : OperandList}
    (hslots : ∀ kt ∈ (descriptor c n).slotTypes, kt.2 = .register)
    (htyped : ∀ kt ∈ (descriptor c n).slotTypes, (ops.get kt.1).hasType kt.2 = true) :
    encode c n.mnemonic ops = if (descriptor c n).regOutOfRange ops then .fail .invalidReg
      else .ok (BitVec.ofNat 32 (fieldSum (descriptor c n).constantWrites + n.format.operandSum ops)) := by
  have himm := Descriptor.immOutOfRange_of_registerSlots hslots ops
  rw [encode_mnemonic hc, Descriptor.encode_of_typed htyped, himm, if_neg Bool.false_ne_true]
  split
  · rfl
  · next hreg =>
    have hvalid : (descriptor c n).validOperands ops = true := ((descriptor c n).validOperands_iff ops).mpr
      ⟨((descriptor c n).typeError_eq_none ops).mpr htyped, Bool.eq_false_iff.mpr hreg, himm⟩
    rw [pack_eq_ofNat_sum hvalid]

/-! ## Format R2 (R73) -/

section
variable {c : Config} {n : InstrName} (hn : n.format = .r2)
include hn

theorem slotTypes_r2 : (descriptor c n).slotTypes = [(.p1, .register), (.p2, .register)] := by
  rw [descriptor_slotTypes, hn]
  rfl

theorem registerSlots_r2 : ∀ kt ∈ (descriptor c n).slotTypes, kt.2 = .register := by
  simp [slotTypes_r2 hn]

theorem extractOperands_r2 (w : Word) : (descriptor c n).extractOperands w =
    ⟨.register (getField w rsField), .register (getField w rtField), .empty, .empty⟩ := by
  rw [Descriptor.extractOperands, descriptor_operandMap, hn]
  rfl

theorem typed_r2_iff (ops : OperandList) :
    (∀ kt ∈ (descriptor c n).slotTypes, (ops.get kt.1).hasType kt.2 = true) ↔
      (∃ rs, ops.op1 = .register rs) ∧ ∃ rt, ops.op2 = .register rt := by
  simp [slotTypes_r2 hn, OperandList.get, Operand.hasType_register_iff]

theorem regOutOfRange_r2_iff (ops : OperandList) : (descriptor c n).regOutOfRange ops = true ↔
    ops.op1.value > 31 ∨ ops.op2.value > 31 := by
  rw [Descriptor.regOutOfRange_iff]
  simp [slotTypes_r2 hn, OperandList.get, or_and_right, exists_or]

/-- Encoding two registers in format R2: the range check, then the packed sum. -/
theorem encode_r2_registers (hc : c.wf = true) {v : BitVec 6} (hv : n.funct c = some v) {ops : OperandList}
    {rs rt : Nat} (h1 : ops.op1 = .register rs) (h2 : ops.op2 = .register rt) :
    encode c n.mnemonic ops = if rs > 31 ∨ rt > 31 then .fail .invalidReg
      else .ok (BitVec.ofNat 32 (rs * 2 ^ 21 + rt * 2 ^ 16 + v.toNat)) := by
  have htyped := (typed_r2_iff (c := c) hn ops).mpr ⟨⟨rs, h1⟩, ⟨rt, h2⟩⟩
  have hsum : v.toNat + n.format.operandSum ops = rs * 2 ^ 21 + rt * 2 ^ 16 + v.toNat := by
    rw [hn, Format.operandSum_r2, h1, h2, Operand.value_register, Operand.value_register]
    omega
  rw [encode_of_registerSlots hc (registerSlots_r2 hn) htyped, constantSum_of_funct hv, hsum]
  simp only [regOutOfRange_r2_iff hn, h1, h2, Operand.value_register]

/-- Format R2 with any other operand in its two positions: `MISSING_REG`. -/
theorem encode_r2_missingReg (hc : c.wf = true) {ops : OperandList}
    (h : ∀ rs rt, ops.op1 = .register rs → ops.op2 = .register rt → False) :
    encode c n.mnemonic ops = .fail .missingReg := by
  rw [encode_mnemonic hc]
  refine Descriptor.encode_missingReg (registerSlots_r2 hn) fun htyped => ?_
  obtain ⟨⟨rs, h1⟩, ⟨rt, h2⟩⟩ := (typed_r2_iff hn ops).mp htyped
  exact h rs rt h1 h2

/-- Opcode, filler and function constant: every bit but those of the two registers. -/
theorem hardware_mask_r2 : (descriptor hardware n).mask = 0xFC00FFFF#32 :=
  (by decide : ∀ n ∈ InstrName.all, n.format = .r2 → (descriptor hardware n).mask = 0xFC00FFFF#32) n n.mem_all hn

theorem decode_r2_iff {v : BitVec 6} (hv : n.funct hardware = some v) (w : Word) (ops : OperandList) :
    decode hardware w = .ok n.mnemonic ops ↔ w &&& 0xFC00FFFF#32 = BitVec.ofNat 32 v.toNat ∧
      ops = ⟨.register (w.extractLsb' 21 5).toNat, .register (w.extractLsb' 16 5).toNat, .empty, .empty⟩ := by
  rw [decode_eq_ok_iff hardware_wf, matchesWord_iff_mask, hardware_mask_r2 hn, matchValue_eq_ofNat_sum,
    constantSum_of_funct hv, extractOperands_r2 hn, getField_eq_extractLsb', getField_eq_extractLsb']
  exact Iff.rfl

end

/-- Settles O31: `DIV` and `MULT` are names of format R2, and they differ only in the function constant. -/
theorem twoRegisterInstructionsEncodeAndDecode : Obligations.TwoRegisterInstructionsEncodeAndDecode := by
  rintro ⟨n, funct⟩ hp
  obtain ⟨hn, v, hv, rfl⟩ : n.format = .r2 ∧ ∃ v, n.funct hardware = some v ∧ v.toNat = funct := by
    rw [List.mem_pair, Prod.mk.injEq, Prod.mk.injEq] at hp
    obtain ⟨rfl, rfl⟩ | ⟨rfl, rfl⟩ := hp
    · exact ⟨rfl, 0x1A, rfl, rfl⟩
    · exact ⟨rfl, 0x18, rfl, rfl⟩
  refine ⟨fun ops => ?_, decode_r2_iff hn hv⟩
  split
  · next h1 h2 => exact encode_r2_registers hn hardware_wf hv h1 h2
  · next h => exact encode_r2_missingReg hn hardware_wf h

end Sys2Proof

/-! # Proofs of the statements on the single-register instructions (44_rtype_1reg.md R195, R196) -/

namespace Sys2Proof

/-! ## Format R1 (R74) -/

section
variable {c : Config} {n : InstrName} (hn : n.format = .r1)
include hn

theorem slotTypes_r1 : (descriptor c n).slotTypes = [(.p1, .register)] := by
  rw [descriptor_slotTypes, hn]
  rfl

theorem registerSlots_r1 : ∀ kt ∈ (descriptor c n).slotTypes, kt.2 = .register := by
  simp [slotTypes_r1 hn]

theorem extractOperands_r1 (w : Word) : (descriptor c n).extractOperands w =
    ⟨.register (getField w rdField), .empty, .empty, .empty⟩ := by
  rw [Descriptor.extractOperands, descriptor_operandMap, hn]
  rfl

theorem typed_r1_iff (ops : OperandList) :
    (∀ kt ∈ (descriptor c n).slotTypes, (ops.get kt.1).hasType kt.2 = true) ↔ ∃ rd, ops.op1 = .register rd := by
  simp [slotTypes_r1 hn, OperandList.get, Operand.hasType_register_iff]

theorem regOutOfRange_r1_iff (ops : OperandList) :
    (descriptor c n).regOutOfRange ops = true ↔ ops.op1.value > 31 := by
  rw [Descriptor.regOutOfRange_iff]
  simp [slotTypes_r1 hn, OperandList.get]

/-- Encoding a register in format R1: the range check, then the packed sum. -/
theorem encode_r1_register (hc : c.wf = true) {v : BitVec 6} (hv : n.funct c = some v) {ops : OperandList}
    {rd : Nat} (h1 : ops.op1 = .register rd) : encode c n.mnemonic ops =
      if rd > 31 then .fail .invalidReg else .ok (BitVec.ofNat 32 (rd * 2 ^ 11 + v.toNat)) := by
  have htyped := (typed_r1_iff (c := c) hn ops).mpr ⟨rd, h1⟩
  have hsum : v.toNat + n.format.operandSum ops = rd * 2 ^ 11 + v.toNat := by
    rw [hn, Format.operandSum_r1, h1, Operand.value_register, Nat.add_zero, Nat.add_comm]
  rw [encode_of_registerSlots hc (registerSlots_r1 hn) htyped, constantSum_of_funct hv, hsum]
  simp only [regOutOfRange_r1_iff hn, h1, Operand.value_register]

/-- Format R1 with anything but a register in its position: `MISSING_REG`. -/
theorem encode_r1_missingReg (hc : c.wf = true) {ops : OperandList} (h : ∀ rd, ops.op1 = .register rd → False) :
    encode c n.mnemonic ops = .fail .missingReg := by
  rw [encode_mnemonic hc]
  refine Descriptor.encode_missingReg (registerSlots_r1 hn) fun htyped => ?_
  obtain ⟨rd, h1⟩ := (typed_r1_iff hn ops).mp htyped
  exact h rd h1

/-- Opcode, fillers and function constant: every bit but those of the register. -/
theorem hardware_mask_r1 : (descriptor hardware n).mask = 0xFFFF07FF#32 :=
  (by decide : ∀ n ∈ InstrName.all, n.format = .r1 → (descriptor hardware n).mask = 0xFFFF07FF#32) n n.mem_all hn

theorem decode_r1_iff {v : BitVec 6} (hv : n.funct hardware = some v) (w : Word) (ops : OperandList) :
    decode hardware w = .ok n.mnemonic ops ↔ w &&& 0xFFFF07FF#32 = BitVec.ofNat 32 v.toNat ∧
      ops = ⟨.register (w.extractLsb' 11 5).toNat, .empty, .empty, .empty⟩ := by
  rw [decode_eq_ok_iff hardware_wf, matchesWord_iff_mask, hardware_mask_r1 hn, matchValue_eq_ofNat_sum,
    constantSum_of_funct hv, extractOperands_r1 hn, getField_eq_extractLsb']
  exact Iff.rfl

end

/-- Settles O32: `MFHI` and `MFLO` are names of format R1, and they differ only in the function constant. -/
theorem singleRegisterInstructionsEncodeAndDecode : Obligations.SingleRegisterInstructionsEncodeAndDecode := by
  rintro ⟨n, funct⟩ hp
  obtain ⟨hn, v, hv, rfl⟩ : n.format = .r1 ∧ ∃ v, n.funct hardware = some v ∧ v.toNat = funct := by
    rw [List.mem_pair, Prod.mk.injEq, Prod.mk.injEq] at hp
    obtain ⟨rfl, rfl⟩ | ⟨rfl, rfl⟩ := hp
    · exact ⟨rfl, 0x10, rfl, rfl⟩
    · exact ⟨rfl, 0x12, rfl, rfl⟩
  refine ⟨fun ops => ?_, decode_r1_iff hn hv⟩
  split
  · next h1 => exact encode_r1_register hn hardware_wf hv h1
  · next h => exact encode_r1_missingReg hn hardware_wf h

end Sys2Proof

/-! # Proofs of the statements on the immediate instructions (45_itype.md R200 to R202) -/

namespace Sys2Proof

/-! ## Names without a function constant: the opcode is the only constant (R80, R81) -/

section
variable {n : InstrName} (hop : n.opcode ≠ 0)
include hop

theorem InstrName.funct_eq_none_of_opcode (c : Config) : n.funct c = none :=
  Option.eq_none_iff_forall_ne_some.mpr fun _ hv => hop (InstrName.opcode_eq_zero_of_funct hv)

theorem constantSum_of_opcode (c : Config) :
    fieldSum (descriptor c n).constantWrites = n.opcode.toNat * 2 ^ 26 := by
  have hwrites : (descriptor c n).constantWrites = [(opcodeField, n.opcode.toNat)] := by
    rw [Descriptor.constantWrites, Descriptor.functWrites, descriptor_funct, InstrName.funct_eq_none_of_opcode hop]
    rfl
  rw [hwrites, fieldSum, List.map_singleton, List.sum_singleton, opcodeField_lowBit]

/-- Without fillers, under either filler policy, a Word is recognised by its top six bits (R88, R98). -/
theorem mask_of_opcode (c : Config) (hfill : fillerFields n.format.fields = []) :
    (descriptor c n).mask = 0xFC000000#32 := by
  have hnone : fillerPatterns c.fillerPolicy n.format.fields = [] := by
    cases c.fillerPolicy with
    | strict => rw [fillerPatterns, hfill, List.map_nil]
    | lenient => rfl
  have hpatterns : (descriptor c n).patterns = [(opcodeLiteral n.opcode).toPattern] := by
    rw [descriptor_patterns, patternSet, hnone, InstrName.funct_eq_none_of_opcode hop]
    rfl
  rw [Descriptor.mask, hpatterns, List.foldl_cons, List.foldl_nil, opcodePattern_care]
  exact BitVec.zero_or

theorem decode_of_opcode_iff {c : Config} (hc : c.wf = true) (hfill : fillerFields n.format.fields = [])
    (w : Word) (ops : OperandList) : decode c w = .ok n.mnemonic ops ↔
      w &&& 0xFC000000#32 = BitVec.ofNat 32 (n.opcode.toNat * 2 ^ 26) ∧
        ops = (descriptor c n).extractOperands w := by
  rw [decode_eq_ok_iff hc, matchesWord_iff_mask, mask_of_opcode hop c hfill, matchValue_eq_ofNat_sum,
    constantSum_of_opcode hop]

end

/-! ## Encoding where slots hold registers and immediates (R142 to R145) -/

@[simp] theorem Operand.value_immediate (v : Nat) : (Operand.immediate v).value = v := rfl

theorem Operand.hasType_immediate_iff (o : Operand) : o.hasType .immediate = true ↔ ∃ v, o = .immediate v := by
  cases o <;> simp [Operand.hasType]

theorem Operand.hasType_register_eq_false {o : Operand} (h : ∀ r, o = .register r → False) :
    o.hasType .register = false :=
  Bool.eq_false_iff.mpr fun ht => (o.hasType_register_iff.mp ht).elim h

theorem Operand.hasType_immediate_eq_false {o : Operand} (h : ∀ v, o = .immediate v → False) :
    o.hasType .immediate = false :=
  Bool.eq_false_iff.mpr fun ht => (o.hasType_immediate_iff.mp ht).elim h

/-- With the right type in every slot, the two range checks are left, then the packed sum. -/
theorem encode_mnemonic_of_typed {c : Config} (hc : c.wf = true) {n : InstrName} {ops : OperandList}
    (htyped : ∀ kt ∈ (descriptor c n).slotTypes, (ops.get kt.1).hasType kt.2 = true) :
    encode c n.mnemonic ops = if (descriptor c n).regOutOfRange ops then .fail .invalidReg
      else if (descriptor c n).immOutOfRange ops then .fail .invalidImmed
      else .ok (BitVec.ofNat 32 (fieldSum (descriptor c n).constantWrites + n.format.operandSum ops)) := by
  rw [encode_mnemonic hc, Descriptor.encode_of_typed htyped]
  split
  · rfl
  · next hreg =>
    split
    · rfl
    · next himm =>
      have hvalid : (descriptor c n).validOperands ops = true := ((descriptor c n).validOperands_iff ops).mpr
        ⟨((descriptor c n).typeError_eq_none ops).mpr htyped, Bool.eq_false_iff.mpr hreg, Bool.eq_false_iff.mpr himm⟩
      rw [pack_eq_ofNat_sum hvalid]

/-! ## Slots of two registers and an immediate -/

section
variable {c : Config} {n : InstrName}
  (hslots : (descriptor c n).slotTypes = [(.p1, .register), (.p2, .register), (.p3, .immediate)])
  {ops : OperandList}
include hslots

theorem encode_registers_immediate (hc : c.wf = true) {r₁ r₂ v : Nat} (h1 : ops.op1 = .register r₁)
    (h2 : ops.op2 = .register r₂) (h3 : ops.op3 = .immediate v) :
    encode c n.mnemonic ops = if r₁ > 31 ∨ r₂ > 31 then .fail .invalidReg
      else if v > (c.immPolicy n).max then .fail .invalidImmed
      else .ok (BitVec.ofNat 32 (fieldSum (descriptor c n).constantWrites + n.format.operandSum ops)) := by
  have htyped : ∀ kt ∈ (descriptor c n).slotTypes, (ops.get kt.1).hasType kt.2 = true := by
    simp [hslots, OperandList.get, h1, h2, h3, Operand.hasType]
  have hreg : (descriptor c n).regOutOfRange ops = true ↔ r₁ > 31 ∨ r₂ > 31 := by
    rw [Descriptor.regOutOfRange_iff]
    simp [hslots, OperandList.get, h1, h2, or_and_right, exists_or]
  have himm : (descriptor c n).immOutOfRange ops = true ↔ v > (c.immPolicy n).max := by
    rw [Descriptor.immOutOfRange_iff]
    simp [hslots, OperandList.get, h3]
  rw [encode_mnemonic_of_typed hc htyped]
  simp only [hreg, himm]

theorem encode_registers_invalidParam (hc : c.wf = true) {r₁ r₂ : Nat} (h1 : ops.op1 = .register r₁)
    (h2 : ops.op2 = .register r₂) (h3 : ∀ v, ops.op3 = .immediate v → False) :
    encode c n.mnemonic ops = .fail .invalidParam := by
  have hbefore : ∀ kt ∈ [(Position.p1, SlotType.register), (.p2, .register)], (ops.get kt.1).hasType kt.2 = true := by
    simp [OperandList.get, h1, h2, Operand.hasType]
  rw [encode_mnemonic hc]
  exact Descriptor.encode_of_wrongType (k := .p3) hslots hbefore (Operand.hasType_immediate_eq_false h3)

/-- Whichever of the two registers is missing, it stands before the immediate. -/
theorem encode_registers_missingReg (hc : c.wf = true)
    (h : ∀ r₁ r₂, ops.op1 = .register r₁ → ops.op2 = .register r₂ → False) :
    encode c n.mnemonic ops = .fail .missingReg := by
  rw [encode_mnemonic hc]
  cases h1 : ops.op1.hasType .register with
  | false => exact Descriptor.encode_of_wrongType (before := []) hslots (List.forall_mem_nil _) h1
  | true =>
    obtain ⟨r₁, hr₁⟩ := ops.op1.hasType_register_iff.mp h1
    exact Descriptor.encode_of_wrongType (before := [(.p1, .register)]) (k := .p2) hslots
      (List.forall_mem_singleton.mpr h1) (Operand.hasType_register_eq_false fun r₂ => h r₁ r₂ hr₁)

end

/-! ## Format I (R75) -/

section
variable {c : Config} {n : InstrName} (hn : n.format = .i)
include hn

theorem slotTypes_i :
    (descriptor c n).slotTypes = [(.p1, .register), (.p2, .register), (.p3, .immediate)] := by
  rw [descriptor_slotTypes, hn]
  rfl

theorem extractOperands_i (w : Word) : (descriptor c n).extractOperands w =
    ⟨.register (getField w rtField), .register (getField w rsField), .immediate (getField w immField), .empty⟩ := by
  rw [Descriptor.extractOperands, descriptor_operandMap, hn]
  rfl

theorem opcode_ne_zero_i : n.opcode ≠ 0 :=
  (by decide : ∀ n ∈ InstrName.all, n.format = .i → n.opcode ≠ 0) n n.mem_all hn

theorem encode_i_typed (hc : c.wf = true) {ops : OperandList} {rt rs imm : Nat} (h1 : ops.op1 = .register rt)
    (h2 : ops.op2 = .register rs) (h3 : ops.op3 = .immediate imm) :
    encode c n.mnemonic ops = if rt > 31 ∨ rs > 31 then .fail .invalidReg
      else if imm > (c.immPolicy n).max then .fail .invalidImmed
      else .ok (BitVec.ofNat 32 (n.opcode.toNat * 2 ^ 26 + rs * 2 ^ 21 + rt * 2 ^ 16 + imm)) := by
  have hsum : n.opcode.toNat * 2 ^ 26 + n.format.operandSum ops =
      n.opcode.toNat * 2 ^ 26 + rs * 2 ^ 21 + rt * 2 ^ 16 + imm := by
    rw [hn, Format.operandSum_i, h1, h2, h3, Operand.value_register, Operand.value_register, Operand.value_immediate]
    omega
  rw [encode_registers_immediate (slotTypes_i hn) hc h1 h2 h3, constantSum_of_opcode (opcode_ne_zero_i hn), hsum]

theorem decode_i_iff (hc : c.wf = true) (w : Word) (ops : OperandList) :
    decode c w = .ok n.mnemonic ops ↔ w &&& 0xFC000000#32 = BitVec.ofNat 32 (n.opcode.toNat * 2 ^ 26) ∧
      ops = ⟨.register (w.extractLsb' 16 5).toNat, .register (w.extractLsb' 21 5).toNat,
        .immediate (w.extractLsb' 0 16).toNat, .empty⟩ := by
  rw [decode_of_opcode_iff (opcode_ne_zero_i hn) hc (by rw [hn]; rfl), extractOperands_i hn,
    getField_eq_extractLsb', getField_eq_extractLsb', getField_eq_extractLsb']
  exact Iff.rfl

end

/-- Settles O33: `ADDI` and `SLTI` are names of format I, and they differ only in the opcode. -/
theorem immediateInstructionsEncodeAndDecode : Obligations.ImmediateInstructionsEncodeAndDecode := by
  rintro ⟨n, opcode⟩ hp
  obtain ⟨hn, rfl⟩ : n.format = .i ∧ n.opcode.toNat * 2 ^ 26 = opcode := by
    rw [List.mem_pair, Prod.mk.injEq, Prod.mk.injEq] at hp
    obtain ⟨rfl, rfl⟩ | ⟨rfl, rfl⟩ := hp
    · exact ⟨rfl, rfl⟩
    · exact ⟨rfl, rfl⟩
  refine ⟨fun ops => ?_, decode_i_iff hn hardware_wf⟩
  split
  · next h1 h2 h3 => exact encode_i_typed hn hardware_wf h1 h2 h3
  · next h1 h2 h3 => exact encode_registers_invalidParam (slotTypes_i hn) hardware_wf h1 h2 h3
  · next h _ => exact encode_registers_missingReg (slotTypes_i hn) hardware_wf h

/-! ## Format LUI (R76) -/

section
variable {c : Config}

theorem slotTypes_lui : (descriptor c .lui).slotTypes = [(.p1, .register), (.p2, .immediate)] := rfl

theorem extractOperands_lui (w : Word) : (descriptor c .lui).extractOperands w =
    ⟨.register (getField w rtField), .immediate (getField w immField), .empty, .empty⟩ := rfl

theorem encode_lui_typed (hc : c.wf = true) {ops : OperandList} {rt imm : Nat} (h1 : ops.op1 = .register rt)
    (h2 : ops.op2 = .immediate imm) :
    encode c InstrName.lui.mnemonic ops = if rt > 31 then .fail .invalidReg
      else if imm > (c.immPolicy .lui).max then .fail .invalidImmed
      else .ok (BitVec.ofNat 32 (0x3C000000 + rt * 2 ^ 16 + imm)) := by
  have htyped : ∀ kt ∈ (descriptor c .lui).slotTypes, (ops.get kt.1).hasType kt.2 = true := by
    simp [slotTypes_lui, OperandList.get, h1, h2, Operand.hasType]
  have hreg : (descriptor c .lui).regOutOfRange ops = true ↔ rt > 31 := by
    rw [Descriptor.regOutOfRange_iff]
    simp [slotTypes_lui, OperandList.get, h1]
  have himm : (descriptor c .lui).immOutOfRange ops = true ↔ imm > (c.immPolicy .lui).max := by
    rw [Descriptor.immOutOfRange_iff]
    simp [slotTypes_lui, OperandList.get, h2]
  have hconst : fieldSum (descriptor c .lui).constantWrites = 0x3C000000 :=
    constantSum_of_opcode (n := .lui) (by decide) c
  have hsum : 0x3C000000 + InstrName.lui.format.operandSum ops = 0x3C000000 + rt * 2 ^ 16 + imm := by
    rw [InstrName.format, Format.operandSum_lui, h1, h2, Operand.value_register, Operand.value_immediate]
    omega
  rw [encode_mnemonic_of_typed hc htyped, hconst, hsum]
  simp only [hreg, himm]

theorem encode_lui_invalidParam (hc : c.wf = true) {ops : OperandList} {rt : Nat} (h1 : ops.op1 = .register rt)
    (h2 : ∀ imm, ops.op2 = .immediate imm → False) :
    encode c InstrName.lui.mnemonic ops = .fail .invalidParam := by
  rw [encode_mnemonic hc]
  exact Descriptor.encode_of_wrongType (before := [(.p1, .register)]) (k := .p2) slotTypes_lui
    (List.forall_mem_singleton.mpr (ops.op1.hasType_register_iff.mpr ⟨rt, h1⟩))
    (Operand.hasType_immediate_eq_false h2)

theorem encode_lui_missingReg (hc : c.wf = true) {ops : OperandList} (h : ∀ rt, ops.op1 = .register rt → False) :
    encode c InstrName.lui.mnemonic ops = .fail .missingReg := by
  rw [encode_mnemonic hc]
  exact Descriptor.encode_of_wrongType (before := []) (k := .p1) slotTypes_lui (List.forall_mem_nil _)
    (Operand.hasType_register_eq_false h)

end

/-- Settles O34: the filler in the place of Rs is checked with the opcode. -/
theorem luiEncodesAndDecodes : Obligations.LuiEncodesAndDecodes := by
  refine ⟨fun ops => ?_, fun w ops => ?_⟩
  · split
    · next h1 h2 => exact encode_lui_typed hardware_wf h1 h2
    · next h1 h2 => exact encode_lui_invalidParam hardware_wf h1 h2
    · next h _ => exact encode_lui_missingReg hardware_wf h
  · have hmask : (descriptor hardware .lui).mask = 0xFFE00000#32 := by decide
    have hmatch : (descriptor hardware .lui).matchValue = 0x3C000000#32 := by decide
    rw [decode_eq_ok_iff hardware_wf, matchesWord_iff_mask, hmask, hmatch, extractOperands_lui,
      getField_eq_extractLsb', getField_eq_extractLsb']
    exact Iff.rfl

end Sys2Proof

/-! # Proofs of the statements on the branches (46_branch.md R210 and R211) -/

namespace Sys2Proof

/-! ## Format BR (R77) -/

section
variable {c : Config} {n : InstrName} (hn : n.format = .br)
include hn

theorem slotTypes_br :
    (descriptor c n).slotTypes = [(.p1, .register), (.p2, .register), (.p3, .immediate)] := by
  rw [descriptor_slotTypes, hn]
  rfl

theorem extractOperands_br (w : Word) : (descriptor c n).extractOperands w =
    ⟨.register (getField w rsField), .register (getField w rtField), .immediate (getField w immField), .empty⟩ := by
  rw [Descriptor.extractOperands, descriptor_operandMap, hn]
  rfl

theorem opcode_ne_zero_br : n.opcode ≠ 0 :=
  (by decide : ∀ n ∈ InstrName.all, n.format = .br → n.opcode ≠ 0) n n.mem_all hn

theorem encode_br_typed (hc : c.wf = true) {ops : OperandList} {rs rt off : Nat} (h1 : ops.op1 = .register rs)
    (h2 : ops.op2 = .register rt) (h3 : ops.op3 = .immediate off) :
    encode c n.mnemonic ops = if rs > 31 ∨ rt > 31 then .fail .invalidReg
      else if off > (c.immPolicy n).max then .fail .invalidImmed
      else .ok (BitVec.ofNat 32 (n.opcode.toNat * 2 ^ 26 + rs * 2 ^ 21 + rt * 2 ^ 16 + off)) := by
  have hsum : n.opcode.toNat * 2 ^ 26 + n.format.operandSum ops =
      n.opcode.toNat * 2 ^ 26 + rs * 2 ^ 21 + rt * 2 ^ 16 + off := by
    rw [hn, Format.operandSum_br, h1, h2, h3, Operand.value_register, Operand.value_register, Operand.value_immediate]
    omega
  rw [encode_registers_immediate (slotTypes_br hn) hc h1 h2 h3, constantSum_of_opcode (opcode_ne_zero_br hn), hsum]

theorem decode_br_iff (hc : c.wf = true) (w : Word) (ops : OperandList) :
    decode c w = .ok n.mnemonic ops ↔ w &&& 0xFC000000#32 = BitVec.ofNat 32 (n.opcode.toNat * 2 ^ 26) ∧
      ops = ⟨.register (w.extractLsb' 21 5).toNat, .register (w.extractLsb' 16 5).toNat,
        .immediate (w.extractLsb' 0 16).toNat, .empty⟩ := by
  rw [decode_of_opcode_iff (opcode_ne_zero_br hn) hc (by rw [hn]; rfl), extractOperands_br hn,
    getField_eq_extractLsb', getField_eq_extractLsb', getField_eq_extractLsb']
  exact Iff.rfl

end

/-- Settles O35: `BEQ` and `BNE` are names of format BR, whose register at position 1 is Rs, where format I has Rt. -/
theorem branchInstructionsEncodeAndDecode : Obligations.BranchInstructionsEncodeAndDecode := by
  rintro ⟨n, opcode⟩ hp
  obtain ⟨hn, rfl⟩ : n.format = .br ∧ n.opcode.toNat * 2 ^ 26 = opcode := by
    rw [List.mem_pair, Prod.mk.injEq, Prod.mk.injEq] at hp
    obtain ⟨rfl, rfl⟩ | ⟨rfl, rfl⟩ := hp
    · exact ⟨rfl, rfl⟩
    · exact ⟨rfl, rfl⟩
  refine ⟨fun ops => ?_, decode_br_iff hn hardware_wf⟩
  split
  · next h1 h2 h3 => exact encode_br_typed hn hardware_wf h1 h2 h3
  · next h1 h2 h3 => exact encode_registers_invalidParam (slotTypes_br hn) hardware_wf h1 h2 h3
  · next h _ => exact encode_registers_missingReg (slotTypes_br hn) hardware_wf h

end Sys2Proof

/-! # Proofs of the statements on the load and the store (47_loadstore.md R215 and R216) -/

namespace Sys2Proof

/-! ## Format LS (R78): the immediate stands between the registers -/

section
variable {c : Config} {n : InstrName} (hn : n.format = .ls)
include hn

theorem slotTypes_ls :
    (descriptor c n).slotTypes = [(.p1, .register), (.p2, .immediate), (.p3, .register)] := by
  rw [descriptor_slotTypes, hn]
  rfl

theorem extractOperands_ls (w : Word) : (descriptor c n).extractOperands w =
    ⟨.register (getField w rtField), .immediate (getField w immField), .register (getField w rsField), .empty⟩ := by
  rw [Descriptor.extractOperands, descriptor_operandMap, hn]
  rfl

theorem opcode_ne_zero_ls : n.opcode ≠ 0 :=
  (by decide : ∀ n ∈ InstrName.all, n.format = .ls → n.opcode ≠ 0) n n.mem_all hn

theorem encode_ls_typed (hc : c.wf = true) {ops : OperandList} {rt off rs : Nat} (h1 : ops.op1 = .register rt)
    (h2 : ops.op2 = .immediate off) (h3 : ops.op3 = .register rs) :
    encode c n.mnemonic ops = if rt > 31 ∨ rs > 31 then .fail .invalidReg
      else if off > (c.immPolicy n).max then .fail .invalidImmed
      else .ok (BitVec.ofNat 32 (n.opcode.toNat * 2 ^ 26 + rs * 2 ^ 21 + rt * 2 ^ 16 + off)) := by
  have htyped : ∀ kt ∈ (descriptor c n).slotTypes, (ops.get kt.1).hasType kt.2 = true := by
    simp [slotTypes_ls hn, OperandList.get, h1, h2, h3, Operand.hasType]
  have hreg : (descriptor c n).regOutOfRange ops = true ↔ rt > 31 ∨ rs > 31 := by
    rw [Descriptor.regOutOfRange_iff]
    simp [slotTypes_ls hn, OperandList.get, h1, h3, or_and_right, exists_or]
  have himm : (descriptor c n).immOutOfRange ops = true ↔ off > (c.immPolicy n).max := by
    rw [Descriptor.immOutOfRange_iff]
    simp [slotTypes_ls hn, OperandList.get, h2]
  have hsum : n.opcode.toNat * 2 ^ 26 + n.format.operandSum ops =
      n.opcode.toNat * 2 ^ 26 + rs * 2 ^ 21 + rt * 2 ^ 16 + off := by
    rw [hn, Format.operandSum_ls, h1, h2, h3, Operand.value_register, Operand.value_immediate, Operand.value_register]
    omega
  rw [encode_mnemonic_of_typed hc htyped, constantSum_of_opcode (opcode_ne_zero_ls hn), hsum]
  simp only [hreg, himm]

/-- Behind a register and an immediate, only Rs can be wrongly typed. -/
theorem encode_ls_missingRs (hc : c.wf = true) {ops : OperandList} {rt off : Nat} (h1 : ops.op1 = .register rt)
    (h2 : ops.op2 = .immediate off) (h3 : ∀ rs, ops.op3 = .register rs → False) :
    encode c n.mnemonic ops = .fail .missingReg := by
  have hbefore : ∀ kt ∈ [(Position.p1, SlotType.register), (.p2, .immediate)], (ops.get kt.1).hasType kt.2 = true := by
    simp [OperandList.get, h1, h2, Operand.hasType]
  rw [encode_mnemonic hc]
  exact Descriptor.encode_of_wrongType (k := .p3) (slotTypes_ls hn) hbefore (Operand.hasType_register_eq_false h3)

/-- A wrongly typed offset decides before Rs is looked at. -/
theorem encode_ls_invalidParam (hc : c.wf = true) {ops : OperandList} {rt : Nat} (h1 : ops.op1 = .register rt)
    (h2 : ∀ off, ops.op2 = .immediate off → False) : encode c n.mnemonic ops = .fail .invalidParam := by
  rw [encode_mnemonic hc]
  exact Descriptor.encode_of_wrongType (before := [(.p1, .register)]) (k := .p2) (slotTypes_ls hn)
    (List.forall_mem_singleton.mpr (ops.op1.hasType_register_iff.mpr ⟨rt, h1⟩))
    (Operand.hasType_immediate_eq_false h2)

theorem encode_ls_missingRt (hc : c.wf = true) {ops : OperandList} (h : ∀ rt, ops.op1 = .register rt → False) :
    encode c n.mnemonic ops = .fail .missingReg := by
  rw [encode_mnemonic hc]
  exact Descriptor.encode_of_wrongType (before := []) (k := .p1) (slotTypes_ls hn) (List.forall_mem_nil _)
    (Operand.hasType_register_eq_false h)

theorem decode_ls_iff (hc : c.wf = true) (w : Word) (ops : OperandList) :
    decode c w = .ok n.mnemonic ops ↔ w &&& 0xFC000000#32 = BitVec.ofNat 32 (n.opcode.toNat * 2 ^ 26) ∧
      ops = ⟨.register (w.extractLsb' 16 5).toNat, .immediate (w.extractLsb' 0 16).toNat,
        .register (w.extractLsb' 21 5).toNat, .empty⟩ := by
  rw [decode_of_opcode_iff (opcode_ne_zero_ls hn) hc (by rw [hn]; rfl), extractOperands_ls hn,
    getField_eq_extractLsb', getField_eq_extractLsb', getField_eq_extractLsb']
  exact Iff.rfl

end

/-- Settles O36: `LW` and `SW` are names of format LS, and the first wrongly typed of Rt, offset and Rs decides. -/
theorem loadStoreInstructionsEncodeAndDecode : Obligations.LoadStoreInstructionsEncodeAndDecode := by
  rintro ⟨n, opcode⟩ hp
  obtain ⟨hn, rfl⟩ : n.format = .ls ∧ n.opcode.toNat * 2 ^ 26 = opcode := by
    rw [List.mem_pair, Prod.mk.injEq, Prod.mk.injEq] at hp
    obtain ⟨rfl, rfl⟩ | ⟨rfl, rfl⟩ := hp
    · exact ⟨rfl, rfl⟩
    · exact ⟨rfl, rfl⟩
  refine ⟨fun ops => ?_, decode_ls_iff hn hardware_wf⟩
  split
  · next h1 h2 h3 => exact encode_ls_typed hn hardware_wf h1 h2 h3
  · next h1 h2 h3 => exact encode_ls_missingRs hn hardware_wf h1 h2 h3
  · next h1 h2 _ => exact encode_ls_invalidParam hn hardware_wf h1 h2
  · next h _ _ => exact encode_ls_missingRt hn hardware_wf h

end Sys2Proof

/-! # Proof of the statement on consecutive requests (70_reset_and_hazards.md R256) -/

namespace Sys2Proof.Machine

/-! ## A transaction reads the inputs only (R256) -/

/-- A transaction keeps the inputs and overwrites both outputs, so nothing else of the state it starts from remains. -/
theorem step_eq_next_of_inputs (s : State) :
    step s = .next ⟨s.encIn, s.encIn.response, s.decIn, s.decIn.response⟩ :=
  step_eq s

theorem step_eq_of_inputs_eq {s s' : State} (henc : s.encIn = s'.encIn) (hdec : s.decIn = s'.decIn) :
    step s = step s' := by
  rw [step_eq_next_of_inputs, step_eq_next_of_inputs, henc, hdec]

/-- Settles O52: a request sets the inputs of both ports, so the step for B is the same from the state A left and from reset. -/
theorem resultOfARequestDoesNotDependOnEarlierOnes : Obligations.ResultOfARequestDoesNotDependOnEarlierOnes := by
  intro s encA encB decA decB afterA afterB alone _ hB hAlone
  have hstep : step ((afterA.withEncIn encB).withDecIn decB) = step ((State.reset.withEncIn encB).withDecIn decB) :=
    step_eq_of_inputs_eq (by simp) (by simp)
  rw [hstep, hAlone, Host.Outcome.next.injEq] at hB
  exact hB.symm

end Sys2Proof.Machine

/-! # Proofs of the statements on fields written and read (40_codec_primitives.md R125 to R128; 10_state.md R22) -/

namespace Sys2Proof

/-! ## A field written and read (R125 to R127) -/

theorem getField_setField_mod (w : Word) (f : BitField) (v : Nat) : getField (setField w f v) f = v % 2 ^ f.width := by
  rw [setField_mod, getField_setField_same w (Nat.mod_lt _ (Nat.two_pow_pos _))]

/-- Settles O5: of the value, the bits that fit the field are written. -/
theorem readAfterWriteGivesTheValue : Obligations.ReadAfterWriteGivesTheValue :=
  fun w f v => ⟨getField_setField_mod w f v, getField_setField_same w⟩

/-- Each bit is decided by at most one of two disjoint writes. -/
theorem setField_comm (w : Word) {f g : BitField} (u v : Nat) (h : f.Disjoint g) :
    setField (setField w f u) g v = setField (setField w g v) f u := by
  refine BitVec.eq_of_getLsbD_eq fun i hi => ?_
  simp only [setField_getLsbD _ _ _ hi]
  by_cases hf : f.lowBit ≤ i ∧ i ≤ f.highBit
  · have hg : ¬ (g.lowBit ≤ i ∧ i ≤ g.highBit) := by omega
    rw [if_neg hg, if_pos hf, if_pos hf]
  · rw [if_neg hf, if_neg hf]

/-- Settles O6: a write leaves every bit outside its field. -/
theorem writesToDisjointFieldsDoNotInterfere : Obligations.WritesToDisjointFieldsDoNotInterfere :=
  fun w _ _ u v h => ⟨getField_setField_of_disjoint w u h, setField_comm w u v h⟩

theorem setField_getField (w : Word) (f : BitField) : setField w f (getField w f) = w := by
  refine (word_eq_iff_of_eq_outside f fun i hi ho => setField_getLsbD_outside w f _ hi ho).mpr fun k hk => ?_
  rw [setField_getLsbD_character w f _ hk, getField_testBit_character w f hk]

/-- Words agree at the bits of a field in which they read the same. -/
theorem getLsbD_eq_of_getField_eq {w w' : Word} {f : BitField} (h : getField w f = getField w' f) {i : Nat}
    (hlow : f.lowBit ≤ i) (hhigh : i ≤ f.highBit) : w.getLsbD i = w'.getLsbD i := by
  have hb := f.bounds
  have hbit := congrArg (fun v => v.testBit (i - f.lowBit)) h
  simp only [getField_testBit] at hbit
  rwa [decide_eq_true (show i - f.lowBit < f.width by omega), Bool.true_and, Bool.true_and,
    Nat.add_sub_cancel' hlow] at hbit

/-- The fields of a format leave no bit out (R82). -/
theorem Format.bit_in_field (fmt : Format) :
    ∀ i < 32, ∃ d ∈ fmt.fields, d.field.lowBit ≤ i ∧ i ≤ d.field.highBit := by
  cases fmt <;> decide

theorem word_eq_of_fields_eq (fmt : Format) {w w' : Word}
    (h : ∀ d ∈ fmt.fields, getField w d.field = getField w' d.field) : w = w' :=
  BitVec.eq_of_getLsbD_eq fun i hi => by
    obtain ⟨d, hd, hlow, hhigh⟩ := fmt.bit_in_field i hi
    exact getLsbD_eq_of_getField_eq (h d hd) hlow hhigh

/-- Settles O7: each bit stands in some field of the format. -/
theorem fieldsOfAFormatDetermineTheWord : Obligations.FieldsOfAFormatDetermineTheWord :=
  ⟨setField_getField, fun fmt _ _ => word_eq_of_fields_eq fmt⟩

/-! ## A literal written and matched (R128) -/

theorem FieldLiteral.field_eq {l t : FieldLiteral} (hhigh : t.highBit = l.highBit)
    (hlen : t.bits.length = l.bits.length) : t.field = l.field := by
  rw [BitField.mk.injEq]
  exact ⟨hhigh, hlen⟩

theorem getField_setFieldLiteral (w : Word) (l : FieldLiteral) : getField (setFieldLiteral w l) l.field = bitsValue l.bits :=
  getField_setField_same w (bitsValue_lt l.bits)

/-- Settles O8: the field reads as the written literal's value, and literals of one length differ in value. -/
theorem literalWrittenIsMatchedByItselfOnly : Obligations.LiteralWrittenIsMatchedByItselfOnly := by
  refine fun w l t => ⟨(matchField_toPattern_iff _ l).mpr (getField_setFieldLiteral w l), fun hhigh hlen => ?_⟩
  rw [matchField_toPattern_iff, FieldLiteral.field_eq hhigh hlen, getField_setFieldLiteral]
  exact ⟨bitsValue_inj _ _ hlen.symm, congrArg bitsValue⟩

/-! ## The descriptors are well formed (R22) -/

theorem Format.tiles (fmt : Format) : tilesFrom 32 fmt.fields = true := by cases fmt <;> rfl

theorem Format.widths_ok (fmt : Format) : fmt.fields.all FieldDecl.widthOk = true := by cases fmt <;> rfl

/-- Every operand position maps to a field of the format, at the same bits. -/
theorem Format.operandMap_declared (fmt : Format) :
    (fmt.operandMap.all fun kf => kf.2.declaredIn fmt.fields) = true := by
  cases fmt <;> decide

/-- Settles O9: what a descriptor is checked for is its format's, whatever the configuration. -/
theorem everyDescriptorTilesTheWord : Obligations.EveryDescriptorTilesTheWord := by
  intro c n
  have hslots : (descriptor c n).slotTypes = n.format.operandMap.map fun kf => (kf.1, kf.2.slotType) := rfl
  rw [Descriptor.wf, descriptor_fields, descriptor_operandMap, hslots, n.format.tiles, n.format.widths_ok,
    n.format.operandMap_declared, decide_eq_true n.format.operandMap_nodup, beq_self_eq_true]
  rfl

end Sys2Proof

/-! # Proofs of the statements on the pattern sets, the round trip and the legal words (30_encoding.md R89 to R98;
41_encoder_decoder.md R161, R162) -/

namespace Sys2Proof

/-! ## What a result of either direction says of its request (R141, R151) -/

/-- A decode that completes answers by the descriptor of some name that the Word satisfies. -/
theorem exists_name_of_decode {c : Config} {w : Word} {m : Mnemonic} {ops : OperandList} (h : decode c w = .ok m ops) :
    ∃ n : InstrName, m = n.mnemonic ∧ (descriptor c n).matchesWord w = true ∧ ops = (descriptor c n).extractOperands w := by
  rw [decode] at h
  cases hd : dispatch c w with
  | none => rw [hd] at h; cases h
  | some d =>
    obtain ⟨n, rfl, hm⟩ := dispatch_eq_some hd
    rw [hd] at h
    obtain ⟨rfl, rfl⟩ := DecResult.ok.inj h
    exact ⟨n, rfl, hm, rfl⟩

/-- An encode that completes packs a valid request of some name. -/
theorem exists_name_of_encode {c : Config} {m : Mnemonic} {ops : OperandList} {w : Word} (h : encode c m ops = .ok w) :
    ∃ n : InstrName, m = n.mnemonic ∧ (descriptor c n).validOperands ops = true ∧ (descriptor c n).pack ops = w := by
  rw [encode] at h
  cases hl : lookup c m with
  | none => rw [hl] at h; cases h
  | some d =>
    obtain ⟨n, rfl, hm⟩ := lookup_eq_some c m d hl
    rw [hl] at h
    exact ⟨n, hm, ((descriptor c n).encode_eq_ok_iff ops w).mp h⟩

theorem encode_of_validOperands {c : Config} (hc : c.wf = true) {n : InstrName} {ops : OperandList}
    (h : (descriptor c n).validOperands ops = true) : encode c n.mnemonic ops = .ok ((descriptor c n).pack ops) := by
  rw [encode_mnemonic hc, ((descriptor c n).encode_eq_ok_iff ops _).mpr ⟨h, rfl⟩]

theorem isSome_dispatch_iff {c : Config} (hc : c.wf = true) (w : Word) :
    (dispatch c w).isSome = true ↔ ∃ n : InstrName, (descriptor c n).matchesWord w = true := by
  constructor
  · intro h
    obtain ⟨d, hd⟩ := Option.isSome_iff_exists.mp h
    obtain ⟨n, rfl, hm⟩ := dispatch_eq_some hd
    exact ⟨n, hm⟩
  · rintro ⟨n, hm⟩
    rw [dispatch_of_matchesWord hc hm]
    rfl

/-! ## What a pattern set checks (R88 to R90, R98) -/

theorem matchField_zeroPattern_iff (w : Word) (f : BitField) : matchField w (zeroPattern f) = true ↔ getField w f = 0 := by
  refine ⟨fun h => ?_, matchField_zeroPattern⟩
  refine (eq_iff_testBit_of_lt_two_pow (getField_lt w f) (Nat.two_pow_pos _)).mpr fun k hk => ?_
  have hk' : k < (zeroPattern f).bits.length := hk.trans_eq List.length_replicate.symm
  rw [getField_testBit_character w f hk, Nat.zero_testBit]
  exact ((matchField_iff w _).mp h k hk').1 (List.getElem_replicate _)

theorem matchField_opcode_iff (w : Word) (v : BitVec 6) :
    matchField w (opcodeLiteral v).toPattern = true ↔ w.extractLsb' 26 6 = v := by
  rw [matchField_toPattern_iff, getField_eq_extractLsb']
  show (w.extractLsb' 26 6).toNat = bitsValue (bits6 v) ↔ _
  rw [bits6_value, BitVec.toNat_inj]

theorem matchField_funct_iff (w : Word) (v : BitVec 6) :
    matchField w (functLiteral v).toPattern = true ↔ w.extractLsb' 0 6 = v := by
  rw [matchField_toPattern_iff, getField_eq_extractLsb']
  show (w.extractLsb' 0 6).toNat = bitsValue (bits6 v) ↔ _
  rw [bits6_value, BitVec.toNat_inj]

/-- A Word satisfies a descriptor iff it has its opcode, its function constant where there is one, and, under the strict
policy, zeros in its fillers. -/
theorem matchesWord_iff (c : Config) (n : InstrName) (w : Word) : (descriptor c n).matchesWord w = true ↔
    w.extractLsb' 26 6 = n.opcode ∧ (∀ v, n.funct c = some v → w.extractLsb' 0 6 = v) ∧
      (c.fillerPolicy = .strict → ∀ f ∈ fillerFields n.format.fields, getField w f = 0) := by
  have hfill : (∀ p ∈ fillerPatterns c.fillerPolicy n.format.fields, matchField w p = true) ↔
      (c.fillerPolicy = .strict → ∀ f ∈ fillerFields n.format.fields, getField w f = 0) := by
    cases c.fillerPolicy with
    | strict => simp [fillerPatterns, matchField_zeroPattern_iff]
    | lenient => simp [fillerPatterns]
  have hfunct : (∀ p ∈ ((n.funct c).map fun v => (functLiteral v).toPattern).toList, matchField w p = true) ↔
      ∀ v, n.funct c = some v → w.extractLsb' 0 6 = v := by
    simp [matchField_funct_iff]
  rw [Descriptor.matchesWord, List.all_eq_true, descriptor_patterns, patternSet, List.forall_mem_append,
    List.forall_mem_cons, matchField_opcode_iff, hfill, hfunct, and_assoc]
  exact and_congr_right fun _ => and_comm

/-- Settles O10: what both pattern sets check under either policy, opcode and function constant, belongs to one name. -/
theorem noWordSatisfiesTwoDescriptors : Obligations.NoWordSatisfiesTwoDescriptors := by
  intro c hc w a b ha hb hma hmb
  obtain ⟨n, rfl⟩ := (mem_table_iff hc a).mp ha
  obtain ⟨n', rfl⟩ := (mem_table_iff hc b).mp hb
  rw [name_eq_of_matchesWord hc hma hmb]

/-- Settles O11: the 16 pairs are evaluated, and the patterns of a set check different bits. -/
theorem patternSetsAreTheMatchAndMaskPairs : Obligations.PatternSetsAreTheMatchAndMaskPairs :=
  ⟨by decide, matchesWord_iff_mask⟩

/-! ## The lenient filler policy (R98) -/

/-- Whether a Word satisfies a descriptor without its fillers being looked at. -/
theorem matchesWord_lenient_iff {c : Config} (hc : c.fillerPolicy = .lenient) (n : InstrName) (w : Word) :
    (descriptor c n).matchesWord w = true ↔
      w.extractLsb' 26 6 = n.opcode ∧ ∀ v, n.funct c = some v → w.extractLsb' 0 6 = v := by
  rw [matchesWord_iff, hc]
  simp

/-- Giving up the filler check loses no Word. -/
theorem matchesWord_lenient_of_strict {c : Config} {n : InstrName} {w : Word}
    (h : (descriptor { c with fillerPolicy := .strict } n).matchesWord w = true) :
    (descriptor { c with fillerPolicy := .lenient } n).matchesWord w = true := by
  obtain ⟨hop, hfunct, -⟩ := (matchesWord_iff _ n w).mp h
  exact (matchesWord_lenient_iff rfl n w).mpr ⟨hop, hfunct⟩

/-- Settles O15: the lenient pattern set is the strict one without the fillers, and the operands do not depend on it. -/
theorem lenientPolicyChecksConstantsOnly : Obligations.LenientPolicyChecksConstantsOnly := by
  refine ⟨fun c n w hc => matchesWord_lenient_iff hc n w, fun c w m ops hc h => ?_, by decide, by decide⟩
  obtain ⟨n, rfl, hm, rfl⟩ := exists_name_of_decode h
  exact decode_of_matchesWord (c := { c with fillerPolicy := .lenient }) hc (matchesWord_lenient_of_strict hm)

/-! ## The six classes of illegal words (R92) -/

theorem decode_eq_wrongCommand_iff {c : Config} (hc : c.wf = true) (w : Word) :
    decode c w = .fail .wrongCommand ↔ ¬ ∃ n : InstrName, (descriptor c n).matchesWord w = true := by
  rw [← isSome_dispatch_iff hc, decode]
  cases dispatch c w <;> simp

/-- The fillers of a format are zero. -/
def Format.FillersZero (w : Word) : Format → Prop
  | .r3 => w.extractLsb' 6 5 = 0
  | .r2 => w.extractLsb' 6 10 = 0
  | .r1 => w.extractLsb' 21 5 = 0 ∧ w.extractLsb' 16 5 = 0 ∧ w.extractLsb' 6 5 = 0
  | .lui => w.extractLsb' 21 5 = 0
  | .i | .br | .ls => True

theorem getField_eq_zero_iff (w : Word) (f : BitField) : getField w f = 0 ↔ w.extractLsb' f.lowBit f.width = 0 := by
  simp [getField_eq_extractLsb', BitVec.toNat_eq]

theorem fillers_eq_zero_iff (fmt : Format) (w : Word) :
    (∀ f ∈ fillerFields fmt.fields, getField w f = 0) ↔ fmt.FillersZero w := by
  simp only [getField_eq_zero_iff]
  cases fmt with
  | r3 => exact List.forall_mem_singleton
  | r2 => exact List.forall_mem_singleton
  | r1 =>
    show (∀ f ∈ [rsField, rtField, zeroField10], _) ↔ _
    rw [List.forall_mem_cons, List.forall_mem_cons, List.forall_mem_singleton]
    exact Iff.rfl
  | lui => exact List.forall_mem_singleton
  | i | br | ls => exact iff_of_true (List.forall_mem_nil _) trivial

/-- This hardware's function constants, format by format (R81). -/
def Format.functs : Format → List (BitVec 6)
  | .r3 => [0b100000#6, 0b100100#6, 0b100101#6, 0b100010#6, 0b101010#6]
  | .r2 => [0b011010#6, 0b011000#6]
  | .r1 => [0b010000#6, 0b010010#6]
  | .i | .lui | .br | .ls => []

/-- A function constant belongs to the names of one format. -/
theorem mem_functs_iff {n : InstrName} {v : BitVec 6} (hv : n.funct hardware = some v) (fmt : Format) :
    v ∈ fmt.functs ↔ n.format = fmt := by
  have hall : ∀ n ∈ InstrName.all, ∀ v ∈ n.funct hardware, v ∈ fmt.functs ↔ n.format = fmt := by
    cases fmt <;> decide
  exact hall n n.mem_all v hv

/-- Only three formats have function constants. -/
theorem exists_format_functs_iff {a : Prop} {v : BitVec 6} {p : Format → Prop} :
    (∃ fmt : Format, a ∧ v ∈ fmt.functs ∧ p fmt) ↔ (a ∧ v ∈ Format.r3.functs ∧ p .r3) ∨
      (a ∧ v ∈ Format.r2.functs ∧ p .r2) ∨ (a ∧ v ∈ Format.r1.functs ∧ p .r1) := by
  constructor
  · rintro ⟨fmt, ha, hv, hp⟩
    cases fmt with
    | r3 => exact .inl ⟨ha, hv, hp⟩
    | r2 => exact .inr (.inl ⟨ha, hv, hp⟩)
    | r1 => exact .inr (.inr ⟨ha, hv, hp⟩)
    | i | lui | br | ls => exact absurd hv List.not_mem_nil
  · rintro (h | h | h)
    · exact ⟨.r3, h⟩
    · exact ⟨.r2, h⟩
    · exact ⟨.r1, h⟩

/-- A function constant of this hardware is that of some name. -/
theorem exists_name_of_mem_functs {v : BitVec 6} (h : v ∈ hardware.functs) : ∃ n : InstrName, n.funct hardware = some v := by
  obtain ⟨n, -, hn⟩ := List.mem_filterMap.mp (hardware.functs_eq ▸ h)
  exact ⟨n, hn⟩

theorem funct_mem_functs {n : InstrName} {v : BitVec 6} (hv : n.funct hardware = some v) : v ∈ hardware.functs := by
  rw [hardware.functs_eq]
  exact List.mem_filterMap.mpr ⟨n, n.mem_all, hv⟩

/-- The opcodes of R80. -/
def knownOpcodes : List (BitVec 6) :=
  [0b000000#6, 0b000100#6, 0b000101#6, 0b001000#6, 0b001010#6, 0b001111#6, 0b100011#6, 0b101011#6]

theorem mem_knownOpcodes_iff (v : BitVec 6) : v ∈ knownOpcodes ↔ ∃ n : InstrName, n.opcode = v := by
  constructor
  · intro h
    obtain ⟨n, -, hn⟩ := (by decide : ∀ v ∈ knownOpcodes, ∃ n ∈ InstrName.all, n.opcode = v) v h
    exact ⟨n, hn⟩
  · rintro ⟨n, rfl⟩
    exact (by decide : ∀ n ∈ InstrName.all, n.opcode ∈ knownOpcodes) n n.mem_all

/-- Of the names without a function constant, `LUI` alone has a filler. -/
theorem eq_lui_of_not_fillersZero {n : InstrName} {w : Word} (hop : n.opcode ≠ 0) (hz : ¬ n.format.FillersZero w) :
    n = .lui := by
  cases n with
  | lui => rfl
  | add | and | or | sub | slt | div | mult | mfhi | mflo => exact absurd rfl hop
  | addi | slti | beq | bne | lw | sw => exact absurd trivial hz

/-- No descriptor of this hardware accepts a Word iff its opcode is unknown, or its function constant is, or a filler is
not zero. -/
theorem no_match_iff (w : Word) : (¬ ∃ n : InstrName, (descriptor hardware n).matchesWord w = true) ↔
    (w.extractLsb' 26 6 ∉ knownOpcodes) ∨
    (w.extractLsb' 26 6 = 0 ∧ w.extractLsb' 0 6 ∉ hardware.functs) ∨
    (∃ fmt : Format, w.extractLsb' 26 6 = 0 ∧ w.extractLsb' 0 6 ∈ fmt.functs ∧ ¬ fmt.FillersZero w) ∨
    (w.extractLsb' 26 6 = InstrName.lui.opcode ∧ ¬ Format.lui.FillersZero w) := by
  simp only [matchesWord_iff, fillers_eq_zero_iff, show hardware.fillerPolicy = .strict from rfl, true_imp_iff]
  constructor
  · intro h
    by_cases hop : w.extractLsb' 26 6 ∈ knownOpcodes
    · by_cases h0 : w.extractLsb' 26 6 = 0
      · by_cases hf : w.extractLsb' 0 6 ∈ hardware.functs
        · obtain ⟨n, hn⟩ := exists_name_of_mem_functs hf
          have hz : ¬ n.format.FillersZero w := fun hz =>
            h ⟨n, h0.trans (InstrName.opcode_eq_zero_of_funct hn).symm, fun v hv => Option.some.inj (hn.symm.trans hv), hz⟩
          exact .inr (.inr (.inl ⟨n.format, h0, (mem_functs_iff hn _).mpr rfl, hz⟩))
        · exact .inr (.inl ⟨h0, hf⟩)
      · obtain ⟨n, hn⟩ := (mem_knownOpcodes_iff _).mp hop
        have hn0 : n.opcode ≠ 0 := hn ▸ h0
        have hnone := InstrName.funct_eq_none_of_opcode hn0 hardware
        have hz : ¬ n.format.FillersZero w := fun hz =>
          h ⟨n, hn.symm, fun v hv => absurd (hnone.symm.trans hv) (Option.some_ne_none v).symm, hz⟩
        obtain rfl := eq_lui_of_not_fillersZero hn0 hz
        exact .inr (.inr (.inr ⟨hn.symm, hz⟩))
    · exact .inl hop
  · rintro hclass ⟨n, hop, hf, hz⟩
    rw [hop] at hclass
    obtain h | ⟨h0, h⟩ | ⟨fmt, h0, h, hnz⟩ | ⟨h, hnz⟩ := hclass
    · exact h ((mem_knownOpcodes_iff _).mpr ⟨n, rfl⟩)
    · obtain ⟨v, hv⟩ := InstrName.funct_of_opcode_zero hardware h0
      exact h (hf v hv ▸ funct_mem_functs hv)
    · obtain ⟨v, hv⟩ := InstrName.funct_of_opcode_zero hardware h0
      rw [hf v hv, mem_functs_iff hv] at h
      exact hnz (h ▸ hz)
    · obtain rfl : n = .lui := InstrName.eq_of_opcode_ne_zero (h ▸ by decide) h
      exact hnz hz

/-- Settles O13: a Word is legal iff some descriptor accepts it, and the classes are the ways a pattern set fails. -/
theorem illegalWordsAreExactlyTheSixClasses : Obligations.IllegalWordsAreExactlyTheSixClasses := by
  intro w
  have hr1 : ¬ Format.r1.FillersZero w ↔
      w.extractLsb' 21 5 ≠ 0 ∨ w.extractLsb' 16 5 ≠ 0 ∨ w.extractLsb' 6 5 ≠ 0 := by
    rw [Format.FillersZero, not_and_or, not_and_or]
  rw [decode_eq_wrongCommand_iff hardware_wf, no_match_iff, exists_format_functs_iff, hr1, or_assoc, or_assoc]
  exact Iff.rfl

/-! ## The round trip from a Word (R161) -/

/-- The constants of a descriptor, at their fields, are what a Word that satisfies it holds there. -/
theorem getField_constant_of_matchesWord {c : Config} {n : InstrName} {w : Word}
    (h : (descriptor c n).matchesWord w = true) : ∀ fv ∈ (descriptor c n).constantWrites, getField w fv.1 = fv.2 := by
  obtain ⟨hop, hfunct, -⟩ := (matchesWord_iff c n w).mp h
  rintro fv (_ | ⟨_, hfv⟩)
  · exact (getField_eq_extractLsb' w opcodeField).trans (congrArg BitVec.toNat hop)
  · obtain ⟨v, hv, rfl⟩ := Descriptor.mem_functWrites.mp hfv
    exact (getField_eq_extractLsb' w functField).trans (congrArg BitVec.toNat (hfunct v hv))

/-- Every field of a format is a filler, or holds a constant of the name or an operand. -/
theorem InstrName.field_cases (n : InstrName) : ∀ d ∈ n.format.fields,
    d.field ∈ fillerFields n.format.fields ∨ d.field ∈ n.constantFields ∨ d.field ∈ n.format.operandFields := by
  cases n <;> decide

theorem OperandField.extract_value (f : OperandField) (w : Word) : (f.extract w).value = getField w f.field := by
  cases f <;> rfl

/-- Packing what was extracted from a Word that satisfies the descriptor, its fillers zero, gives the Word back: they
agree on every field of the format. -/
theorem pack_extractOperands {c : Config} {n : InstrName} {w : Word} (hstrict : c.fillerPolicy = .strict)
    (hm : (descriptor c n).matchesWord w = true)
    (hvalid : (descriptor c n).validOperands ((descriptor c n).extractOperands w) = true) :
    (descriptor c n).pack ((descriptor c n).extractOperands w) = w := by
  obtain ⟨-, -, hfill⟩ := (matchesWord_iff c n w).mp hm
  refine word_eq_of_fields_eq n.format fun d hd => ?_
  obtain hd | hd | hd := n.field_cases d hd
  · rw [getField_pack_filler c _ hd, hfill hstrict _ hd]
  · rw [← constantWrites_fields c] at hd
    obtain ⟨fv, hfv, hd⟩ := List.mem_map.mp hd
    rw [← hd, getField_pack hvalid (List.mem_append_left _ hfv), getField_constant_of_matchesWord hm fv hfv]
  · obtain ⟨⟨k, f⟩, hkf, hd⟩ := List.mem_map.mp hd
    have hread := getField_pack hvalid (List.mem_append_right _ (List.mem_map_of_mem (f := operandWrite _) hkf))
    rw [← hd]
    exact hread.trans ((congrArg Operand.value (extractOperands_get_of_mem c w hkf)).trans (f.extract_value w))

/-- An extracted operand is valid where immediates range over all 16 bits. -/
theorem OperandField.validFor_extract (f : OperandField) (w : Word) : (f.extract w).validFor .u16 f.slotType = true := by
  cases f with
  | reg r =>
    have hlt := getField_lt w r.field
    rw [r.field_width] at hlt
    exact decide_eq_true (Nat.le_of_lt_succ hlt)
  | imm => exact decide_eq_true (Nat.le_of_lt_succ (getField_lt w immField))

theorem validOperands_extractOperands {c : Config} {n : InstrName} (hu16 : c.immPolicy n = .u16) (w : Word) :
    (descriptor c n).validOperands ((descriptor c n).extractOperands w) = true := by
  refine List.all_eq_true.mpr fun kt hkt => ?_
  obtain ⟨⟨k, f⟩, hkf, rfl⟩ := List.mem_map.mp hkt
  rw [extractOperands_get_of_mem c w hkf, descriptor_immPolicy, hu16]
  exact f.validFor_extract w

/-- Settles O25: the extracted operands are in range, and packing them writes every field of the Word as it was. -/
theorem encodeAfterDecodeGivesTheWordBack : Obligations.EncodeAfterDecodeGivesTheWordBack := by
  intro c hc hstrict hu16 w m ops h
  obtain ⟨n, rfl, hm, rfl⟩ := exists_name_of_decode h
  have hvalid := validOperands_extractOperands (hu16 n) w
  refine ⟨⟨n, rfl, hvalid⟩, ?_⟩
  rw [encode_of_validOperands hc hvalid, pack_extractOperands hstrict hm hvalid]

/-- Settles O26: the round trip in both directions. -/
theorem encodeIsABijectionOntoLegalWords : Obligations.EncodeIsABijectionOntoLegalWords := by
  refine ⟨fun n n' ops ops' w h h' => ?_, fun w => ⟨fun ⟨m, ops, h⟩ => ?_, fun ⟨m, ops, h⟩ => ?_⟩⟩
  · have hd := (decodeAfterEncodeGivesTheRequestBack hardware n ops hardware_wf).2 w h
    have hd' := (decodeAfterEncodeGivesTheRequestBack hardware n' ops' hardware_wf).2 w h'
    obtain ⟨hname, hops⟩ := DecResult.ok.inj (hd.symm.trans hd')
    exact ⟨InstrName.mnemonic_injective hname, hops⟩
  · obtain ⟨n, rfl, -⟩ := exists_name_of_encode h
    exact ⟨_, _, (decodeAfterEncodeGivesTheRequestBack hardware n ops hardware_wf).2 w h⟩
  · exact ⟨m, ops, (encodeAfterDecodeGivesTheWordBack hardware hardware_wf rfl (fun _ => rfl) w m ops h).2⟩

end Sys2Proof

/-! # Proofs of the statements on the instructions and on the legal words they encode to (41_encoder_decoder.md section 3;
30_encoding.md R91) -/

namespace Sys2Proof

/-! ## An instruction as a request (30_encoding.md R84, R87) -/

theorem Operand.validFor_immediate_eq (policy : ImmPolicy) (v : Nat) :
    (Operand.immediate v).validFor policy .immediate = decide (v ≤ policy.max) := rfl

/-- An instruction is well formed iff its operand list passes the Encoder's validation: of its operands, only an immediate
can be out of range. -/
theorem Instr.wf_eq_validOperands (c : Config) (i : Instr) :
    i.wf c = (descriptor c i.name).validOperands i.operands := by
  rw [Descriptor.validOperands, descriptor_slotTypes, List.all_map, descriptor_immPolicy]
  cases i with
  | add | and | or | sub | slt | div | mult | mfhi | mflo =>
    simp [Instr.wf, Instr.name, InstrName.format, Format.operandMap, OperandField.slotType, OperandList.get,
      Instr.operands, Machine.formR3, Machine.formR2, Machine.formR1]
  | addi | slti | lui | beq | bne | lw | sw =>
    simp [Instr.wf, Instr.name, InstrName.format, Format.operandMap, OperandField.slotType, OperandList.get,
      Instr.operands, Machine.formI, Machine.formLui, Machine.formBr, Machine.formLs, Operand.validFor_immediate_eq]

/-- An operand's number as a register number. -/
def Operand.reg (o : Operand) : RegNum := BitVec.ofNat 5 o.value

/-- An operand's number as an immediate. -/
def Operand.imm (o : Operand) : Imm16 := BitVec.ofNat 16 o.value

@[simp] theorem Operand.reg_register (r : RegNum) : (Operand.register r.toNat).reg = r := BitVec.ofNat_toNat ..
@[simp] theorem Operand.imm_immediate (v : Imm16) : (Operand.immediate v.toNat).imm = v := BitVec.ofNat_toNat ..

/-- The instruction of a name with the operands of a list. -/
def InstrName.ofOperands (ops : OperandList) : InstrName → Instr
  | .add => .add ops.op1.reg ops.op2.reg ops.op3.reg
  | .and => .and ops.op1.reg ops.op2.reg ops.op3.reg
  | .or => .or ops.op1.reg ops.op2.reg ops.op3.reg
  | .sub => .sub ops.op1.reg ops.op2.reg ops.op3.reg
  | .slt => .slt ops.op1.reg ops.op2.reg ops.op3.reg
  | .div => .div ops.op1.reg ops.op2.reg
  | .mult => .mult ops.op1.reg ops.op2.reg
  | .mfhi => .mfhi ops.op1.reg
  | .mflo => .mflo ops.op1.reg
  | .addi => .addi ops.op1.reg ops.op2.reg ops.op3.imm
  | .slti => .slti ops.op1.reg ops.op2.reg ops.op3.imm
  | .lui => .lui ops.op1.reg ops.op2.imm
  | .beq => .beq ops.op1.reg ops.op2.reg ops.op3.imm
  | .bne => .bne ops.op1.reg ops.op2.reg ops.op3.imm
  | .lw => .lw ops.op1.reg ops.op2.imm ops.op3.reg
  | .sw => .sw ops.op1.reg ops.op2.imm ops.op3.reg

theorem Instr.ofOperands_operands (i : Instr) : i.name.ofOperands i.operands = i := by
  cases i <;> simp [Instr.name, Instr.operands, InstrName.ofOperands, Machine.formR3, Machine.formR2, Machine.formR1,
    Machine.formI, Machine.formLui, Machine.formBr, Machine.formLs]

/-- An instruction is known by its name and its operand list. -/
theorem Instr.ext_operands {i j : Instr} (hname : i.name = j.name) (hops : i.operands = j.operands) : i = j := by
  rw [← i.ofOperands_operands, hname, hops, j.ofOperands_operands]

/-- An instruction's operand list is empty where its descriptor declares nothing. -/
theorem Instr.normalise_operands (c : Config) (i : Instr) : (descriptor c i.name).normalise i.operands = i.operands := by
  cases i <;> rfl

/-! ## The two round trips of an instruction -/

/-- The Word an instruction is packed to under a configuration. -/
def Instr.word (c : Config) (i : Instr) : Word := (descriptor c i.name).pack i.operands

theorem encodeInstr_of_wf {c : Config} (hc : c.wf = true) {i : Instr} (hi : i.wf c = true) :
    encodeInstr c i = .ok (i.word c) :=
  encode_of_validOperands hc (i.wf_eq_validOperands c ▸ hi)

theorem decodeInstr_of_matchesWord {c : Config} (hc : c.wf = true) {n : InstrName} {w : Word}
    (h : (descriptor c n).matchesWord w = true) : decodeInstr c w = .ok (n.ofWord w) := by
  rw [decodeInstr, dispatch_of_matchesWord hc h]
  rfl

/-- A Word that decodes to an instruction satisfies the descriptor of its name, and has its operands. -/
theorem matchesWord_of_decodeInstr {c : Config} {w : Word} {i : Instr} (h : decodeInstr c w = .ok i) :
    (descriptor c i.name).matchesWord w = true ∧ (descriptor c i.name).extractOperands w = i.operands := by
  rw [decodeInstr] at h
  cases hd : dispatch c w with
  | none => rw [hd] at h; cases h
  | some d =>
    obtain ⟨n, rfl, hm⟩ := dispatch_eq_some hd
    rw [hd] at h
    obtain rfl := Except.ok.inj h
    rw [descriptor_name, InstrName.ofWord_name]
    exact ⟨hm, extractOperands_descriptor c n w⟩

theorem decodeInstr_word {c : Config} (hc : c.wf = true) {i : Instr} (hi : i.wf c = true) :
    decodeInstr c (i.word c) = .ok i := by
  have hvalid : (descriptor c i.name).validOperands i.operands = true := i.wf_eq_validOperands c ▸ hi
  have hops : (i.name.ofWord (i.word c)).operands = i.operands := by
    rw [← extractOperands_descriptor c, Instr.word, extractOperands_pack hvalid, i.normalise_operands]
  rw [Instr.word, decodeInstr_of_matchesWord hc (matchesWord_pack hvalid)]
  exact congrArg Except.ok (Instr.ext_operands (InstrName.ofWord_name _ _) hops)

/-- Settles O27: the packed Word satisfies the descriptor of the instruction's name, and its operand fields give the
instruction's operands back. -/
theorem decodeInstrInvertsEncodeInstr : Obligations.DecodeInstrInvertsEncodeInstr :=
  fun _ _ hc hi => ⟨_, encodeInstr_of_wf hc hi, decodeInstr_word hc hi⟩

theorem word_of_decodeInstr {c : Config} (hstrict : c.fillerPolicy = .strict) {w : Word} {i : Instr}
    (h : decodeInstr c w = .ok i) (hi : i.wf c = true) : i.word c = w := by
  obtain ⟨hm, hops⟩ := matchesWord_of_decodeInstr h
  rw [i.wf_eq_validOperands, ← hops] at hi
  rw [Instr.word, ← hops, pack_extractOperands hstrict hm hi]

/-- Settles O28: the instruction's operands are the extracted ones, and packing them gives the Word back. -/
theorem encodeInstrInvertsDecodeInstr : Obligations.EncodeInstrInvertsDecodeInstr := by
  intro c w i hc hstrict h hi
  rw [encodeInstr_of_wf hc hi, word_of_decodeInstr hstrict h hi]

/-! ## The legal words and their number (R91) -/

/-- Every instruction is well formed on this hardware: its immediates range over all 16 bits. -/
theorem Instr.wf_hardware (i : Instr) : i.wf hardware = true := by
  cases i with
  | add | and | or | sub | slt | div | mult | mfhi | mflo => rfl
  | addi _ _ v | slti _ _ v | lui _ v | beq _ _ v | bne _ _ v | lw _ v _ | sw _ v _ => exact decide_eq_true (imm16_le v)

/-- Different instructions have different Words. -/
theorem Instr.word_injective : Function.Injective (Instr.word hardware) := fun i j h =>
  Except.ok.inj ((decodeInstr_word hardware_wf i.wf_hardware).symm.trans
    (h ▸ decodeInstr_word hardware_wf j.wf_hardware))

/-- The legal words are the instructions' words. -/
theorem isSome_dispatch_iff_mem_range (w : Word) :
    (dispatch hardware w).isSome = true ↔ w ∈ Set.range (Instr.word hardware) := by
  rw [isSome_dispatch_iff hardware_wf]
  constructor
  · rintro ⟨n, hm⟩
    exact ⟨n.ofWord w, word_of_decodeInstr rfl (decodeInstr_of_matchesWord hardware_wf hm) (Instr.wf_hardware _)⟩
  · rintro ⟨i, rfl⟩
    exact ⟨i.name, matchesWord_pack (i.wf_eq_validOperands hardware ▸ i.wf_hardware)⟩

theorem card_bitVec (n : Nat) : Nat.card (BitVec n) = 2 ^ n :=
  (Nat.card_congr BitVec.equivFin.toEquiv).trans (Nat.card_fin _)

/-- An instruction as its constructor and its operands. -/
def Instr.constructorEquiv := proxy_equiv% Instr

/-- Five times three registers, twice two, twice one, six times two registers and an immediate, once one and an immediate. -/
theorem card_instr : Nat.card Instr = 404916288 := by
  rw [← Nat.card_congr Instr.constructorEquiv]
  simp only [Nat.card_sum, Nat.card_sigma, Finset.sum_const, Finset.card_univ, ← Nat.card_eq_fintype_card, card_bitVec]
  norm_num

theorem card_legal : Nat.card { w : Word // (dispatch hardware w).isSome = true } = 404916288 := by
  rw [Nat.card_congr (Equiv.subtypeEquivRight isSome_dispatch_iff_mem_range), ← card_instr]
  exact Nat.card_range_of_injective Instr.word_injective

/-- The illegal words are the rest of the `2 ^ 32`. -/
theorem card_illegal : Nat.card { w : Word // (dispatch hardware w).isSome = false } = 3890051008 := by
  have hsum : Nat.card { w : Word // (dispatch hardware w).isSome = true } +
      Nat.card { w : Word // ¬ (dispatch hardware w).isSome = true } = 2 ^ 32 := by
    rw [← Nat.card_sum, Nat.card_congr (Equiv.sumCompl _), card_bitVec]
  rw [card_legal] at hsum
  simp only [Bool.not_eq_true] at hsum
  omega

/-- A Word that some descriptor accepts is accepted by exactly one. -/
theorem isSome_dispatch_iff_existsUnique {c : Config} (hc : c.wf = true) (w : Word) :
    (dispatch c w).isSome = true ↔ ∃! d, d ∈ table c ∧ d.matchesWord w = true := by
  rw [isSome_dispatch_iff hc]
  constructor
  · rintro ⟨n, hm⟩
    refine ⟨_, ⟨(mem_table_iff hc _).mpr ⟨n, rfl⟩, hm⟩, fun d ⟨hd, hdm⟩ => ?_⟩
    exact noWordSatisfiesTwoDescriptors c hc w d _ hd ((mem_table_iff hc _).mpr ⟨n, rfl⟩) hdm hm
  · rintro ⟨d, ⟨hd, hm⟩, -⟩
    obtain ⟨n, rfl⟩ := (mem_table_iff hc d).mp hd
    exact ⟨n, hm⟩

/-- The legal words are the Encoder's answers: each is an instruction's word, and what is packed satisfies its descriptor. -/
theorem isSome_dispatch_iff_encode (w : Word) :
    (dispatch hardware w).isSome = true ↔ ∃ m ops, encode hardware m ops = .ok w := by
  constructor
  · rw [isSome_dispatch_iff_mem_range]
    rintro ⟨i, rfl⟩
    exact ⟨_, _, encodeInstr_of_wf hardware_wf i.wf_hardware⟩
  · rintro ⟨m, ops, h⟩
    obtain ⟨n, -, hvalid, rfl⟩ := exists_name_of_encode h
    exact (isSome_dispatch_iff hardware_wf _).mpr ⟨n, matchesWord_pack hvalid⟩

/-- Settles O12: the legal words are counted through the instructions, each of which has one Word of its own. -/
theorem legalWordsAreTheEncodersImageAndAreCounted : Obligations.LegalWordsAreTheEncodersImageAndAreCounted :=
  ⟨isSome_dispatch_iff_existsUnique hardware_wf, isSome_dispatch_iff_encode, card_legal, card_illegal⟩

/-! ## `AND`, `OR`, `SUB`, `SLT` (R181 to R184) -/

section
variable {n : InstrName} (hn : n.format = .r3)
include hn

/-- Opcode, filler and function constant: every bit but those of the three registers. -/
theorem hardware_mask_r3 : (descriptor hardware n).mask = 0xFC0007FF#32 :=
  (by decide : ∀ n ∈ InstrName.all, n.format = .r3 → (descriptor hardware n).mask = 0xFC0007FF#32) n n.mem_all hn

theorem decode_r3_iff {v : BitVec 6} (hv : n.funct hardware = some v) (w : Word) (ops : OperandList) :
    decode hardware w = .ok n.mnemonic ops ↔ w &&& 0xFC0007FF#32 = BitVec.ofNat 32 v.toNat ∧
      ops = ⟨.register (w.extractLsb' 11 5).toNat, .register (w.extractLsb' 21 5).toNat,
        .register (w.extractLsb' 16 5).toNat, .empty⟩ := by
  rw [decode_eq_ok_iff hardware_wf, matchesWord_iff_mask, hardware_mask_r3 hn, matchValue_eq_ofNat_sum,
    constantSum_of_funct hv, extractOperands_r3 hn, getField_eq_extractLsb', getField_eq_extractLsb',
    getField_eq_extractLsb']
  exact Iff.rfl

end

/-- Settles O30: the four are names of format R3, and they differ only in the function constant. -/
theorem threeRegisterInstructionsEncodeAndDecode : Obligations.ThreeRegisterInstructionsEncodeAndDecode := by
  rintro ⟨n, funct⟩ hp
  obtain ⟨hn, v, hv, rfl⟩ : n.format = .r3 ∧ ∃ v, n.funct hardware = some v ∧ v.toNat = funct := by
    simp only [List.mem_cons, List.not_mem_nil, or_false, Prod.mk.injEq] at hp
    obtain ⟨rfl, rfl⟩ | ⟨rfl, rfl⟩ | ⟨rfl, rfl⟩ | ⟨rfl, rfl⟩ := hp
    · exact ⟨rfl, 0x24, rfl, rfl⟩
    · exact ⟨rfl, 0x25, rfl, rfl⟩
    · exact ⟨rfl, 0x22, rfl, rfl⟩
    · exact ⟨rfl, 0x2A, rfl, rfl⟩
  refine ⟨fun ops => ?_, decode_r3_iff hn hv⟩
  split
  · next h1 h2 h3 => exact encode_r3_registers hn hardware_wf hv h1 h2 h3
  · next h => exact encode_r3_missingReg hn hardware_wf h

end Sys2Proof

/-! # Proof of the statement on the Outcomes of each mnemonic (60_exceptions.md R233) -/

namespace Sys2Proof

/-! ## How an encode ends, once the descriptor is known (R142 to R148) -/

theorem Descriptor.typeError_eq_some {d : Descriptor} {ops : OperandList} {o : Outcome} (h : d.typeError ops = some o) :
    ∃ k t, (k, t) ∈ d.slotTypes ∧ o = t.wrongTypeOutcome := by
  obtain ⟨⟨k, t⟩, hmem, hkt⟩ := List.exists_of_findSome?_eq_some h
  have htype : (ops.get k).hasType t = false := by
    rw [← Bool.not_eq_true, ← slotError_eq_none, hkt]
    exact Option.some_ne_none o
  exact ⟨k, t, hmem, Option.some.inj (hkt.symm.trans (slotError_of_wrongType htype))⟩

/-- A slot's type error, a register or an immediate out of range, or the packed Word of a valid request. -/
theorem Descriptor.encode_cases (d : Descriptor) (ops : OperandList) :
    (∃ k t, (k, t) ∈ d.slotTypes ∧ d.encode ops = .fail t.wrongTypeOutcome) ∨
    d.encode ops = .fail .invalidReg ∨
    (∃ k, (k, SlotType.immediate) ∈ d.slotTypes ∧ d.encode ops = .fail .invalidImmed) ∨
    (d.validOperands ops = true ∧ d.encode ops = .ok (d.pack ops)) := by
  cases ht : d.typeError ops with
  | some o =>
    obtain ⟨k, t, hmem, rfl⟩ := Descriptor.typeError_eq_some ht
    exact .inl ⟨k, t, hmem, by rw [Descriptor.encode, ht]⟩
  | none =>
    cases hr : d.regOutOfRange ops with
    | true => exact .inr (.inl (by rw [Descriptor.encode, ht, hr]; rfl))
    | false =>
      cases hi : d.immOutOfRange ops with
      | true =>
        obtain ⟨k, hk, -⟩ := (d.immOutOfRange_iff ops).mp hi
        exact .inr (.inr (.inl ⟨k, hk, by rw [Descriptor.encode, ht, hr, hi]; rfl⟩))
      | false =>
        have hvalid := (d.validOperands_iff ops).mpr ⟨ht, hr, hi⟩
        exact .inr (.inr (.inr ⟨hvalid, (d.encode_eq_ok_iff ops _).mpr ⟨hvalid, rfl⟩⟩))

/-- The mnemonics with an immediate (R233). -/
def immediateNames : List InstrName := [.addi, .slti, .lui, .beq, .bne, .lw, .sw]

theorem mem_immediateNames {c : Config} {n : InstrName} {k : Position}
    (h : (k, SlotType.immediate) ∈ (descriptor c n).slotTypes) : n ∈ immediateNames := by
  have himm : SlotType.immediate ∈ n.format.operandMap.map fun kf => kf.2.slotType := by
    obtain ⟨kf, hkf, heq⟩ := List.mem_map.mp h
    exact List.mem_map.mpr ⟨kf, hkf, congrArg Prod.snd heq⟩
  exact (by decide : ∀ n ∈ InstrName.all, SlotType.immediate ∈ n.format.operandMap.map (fun kf => kf.2.slotType) →
    n ∈ immediateNames) n n.mem_all himm

/-- The operand list of a format with one register number and one immediate in its declared positions. -/
def Format.request (r v : Nat) : Format → OperandList
  | .r3 => ⟨.register r, .register r, .register r, .empty⟩
  | .r2 => ⟨.register r, .register r, .empty, .empty⟩
  | .r1 => ⟨.register r, .empty, .empty, .empty⟩
  | .i | .br => ⟨.register r, .register r, .immediate v, .empty⟩
  | .lui => ⟨.register r, .immediate v, .empty, .empty⟩
  | .ls => ⟨.register r, .immediate v, .register r, .empty⟩

/-- Every mnemonic gets these with no operands, with register 32, and with every operand in range. -/
theorem outcomes_reached : ∀ n ∈ InstrName.all,
    (encode hardware n.mnemonic .allEmpty).outcome = .missingReg ∧
    (encode hardware n.mnemonic (n.format.request 32 0)).outcome = .invalidReg ∧
    (encode hardware n.mnemonic (n.format.request 31 0)).outcome = .completeEncode := by
  decide

/-- A mnemonic with an immediate gets these with none at its position, and with one of 17 bits. -/
theorem immediate_outcomes_reached : ∀ n ∈ immediateNames,
    (encode hardware n.mnemonic ⟨.register 0, .register 0, .empty, .empty⟩).outcome = .invalidParam ∧
    (encode hardware n.mnemonic (n.format.request 31 0x10000)).outcome = .invalidImmed := by
  decide

/-- Settles O21: each Outcome allowed is reached by some request, and a failure of an immediate needs an immediate slot. -/
theorem outcomesOfEachMnemonic : Obligations.OutcomesOfEachMnemonic := by
  intro n o
  constructor
  · rintro ⟨ops, rfl⟩
    rw [encode_mnemonic hardware_wf]
    obtain ⟨k, t, hmem, h⟩ | h | ⟨k, hmem, h⟩ | ⟨-, h⟩ := (descriptor hardware n).encode_cases ops
    · rw [h]
      cases t with
      | register => exact .inl List.mem_cons_self
      | immediate => exact .inr ⟨mem_immediateNames hmem, List.mem_cons_self⟩
    · rw [h]
      exact .inl (List.mem_cons_of_mem _ List.mem_cons_self)
    · rw [h]
      exact .inr ⟨mem_immediateNames hmem, List.mem_cons_of_mem _ List.mem_cons_self⟩
    · rw [h]
      exact .inl (List.mem_cons_of_mem _ (List.mem_cons_of_mem _ List.mem_cons_self))
  · rintro (ho | ⟨hn, ho⟩)
    · obtain ⟨hmissing, hreg, hcomplete⟩ := outcomes_reached n n.mem_all
      simp only [List.mem_cons, List.not_mem_nil, or_false] at ho
      obtain rfl | rfl | rfl := ho
      · exact ⟨_, hmissing⟩
      · exact ⟨_, hreg⟩
      · exact ⟨_, hcomplete⟩
    · obtain ⟨hparam, himmed⟩ := immediate_outcomes_reached n hn
      obtain rfl | rfl := List.mem_pair.mp ho
      · exact ⟨_, hparam⟩
      · exact ⟨_, himmed⟩

end Sys2Proof

/-! # Proofs of the statements on the step and on what the ports carry (00_scope.md R5, R9; 10_state.md R25, R34 to R38;
41_encoder_decoder.md R165; 42 to 47) -/

namespace Sys2Proof

/-! ## Port widths that are wide enough (00_scope.md R5) -/

theorem Config.portsWf_iff (c : Config) :
    c.portsWf = true ↔ 0x10000 < 2 ^ c.opvalW ∧ 4 ≤ c.mnemBytes ∧ 3 ≤ c.outcomeW := by
  simp only [Config.portsWf, Bool.and_eq_true, decide_eq_true_eq, and_assoc]

theorem Outcome.number_lt (o : Outcome) : o.number < 2 ^ 3 := by cases o <;> decide

/-- The numbers follow the spec's order of the Outcomes, which is that of their definition. -/
theorem Outcome.ofNat_number (o : Outcome) : Outcome.ofNat o.number = o := by cases o <;> rfl

/-- With 3 bits or more, the codes of two Outcomes differ (R25). -/
theorem Outcome.code_injective {c : Config} (hc : 3 ≤ c.outcomeW) : Function.Injective (Outcome.code (c := c)) := by
  intro o o' h
  have hlt : ∀ x : Outcome, x.number < 2 ^ c.outcomeW := fun x =>
    x.number_lt.trans_le (Nat.pow_le_pow_right (by decide) hc)
  have hnum := congrArg BitVec.toNat h
  rw [Outcome.code, Outcome.code, BitVec.toNat_ofNat, BitVec.toNat_ofNat, Nat.mod_eq_of_lt (hlt o),
    Nat.mod_eq_of_lt (hlt o')] at hnum
  rw [← o.ofNat_number, hnum, o'.ofNat_number]

/-- No valid operand exceeds the largest immediate of policy U16. -/
theorem Operand.value_le_of_validFor : ∀ {t : SlotType} {policy : ImmPolicy} {o : Operand},
    o.validFor policy t = true → o.value ≤ 0xFFFF
  | .register, _, .register n, h => by
    have hn : n ≤ 31 := of_decide_eq_true h
    exact hn.trans (by decide)
  | .immediate, policy, .immediate v, h => by
    have hv : v ≤ policy.max := of_decide_eq_true h
    exact hv.trans policy.max_le

end Sys2Proof

namespace Sys2Proof.Machine

/-- Settles O43: the three widths are wide enough for eight codes, four bytes and the largest valid operand. -/
theorem portsCarryTheirValuesAtEveryConfiguredWidth : Obligations.PortsCarryTheirValuesAtEveryConfiguredWidth := by
  refine ⟨⟨rfl, rfl, rfl, hardware_portsWf⟩, fun c hc => ?_⟩
  obtain ⟨hval, hmnem, hout⟩ := c.portsWf_iff.mp hc
  exact ⟨fun _ _ h => Outcome.code_injective hout h, portMnemonic_eq_mnemonic_iff hmnem, fun _ _ o ho =>
    operand_operandPort o ((Operand.value_le_of_validFor ho).trans_lt (lt_trans (by decide) hval))⟩

/-! ## A step as one transaction of the two pure functions (00_scope.md R9) -/

/-- Settles O49: the decoder port answers by the abstract decoder, though the step runs the decoded instruction's meaning. -/
theorem stepRefinesTheTwoPureFunctions : Obligations.StepRefinesTheTwoPureFunctions := step_eq_next_of_inputs

/-- Settles O51: the next state is the one that carries each port's response. -/
theorem everyStepAnswersANextState : Obligations.EveryStepAnswersANextState :=
  fun s => ⟨_, step_eq_next_of_inputs s⟩

/-- Settles O53: each port's outputs are the response to that port's inputs. -/
theorem portsAreIndependent : Obligations.PortsAreIndependent := by
  refine fun s s' t t' h h' => ⟨fun henc => ?_, fun hdec => ?_⟩
  · rw [step_encOut h, step_encOut h', henc]
  · rw [step_decOut h, step_decOut h', hdec]

theorem step_encIn {s t : State} (h : step s = .next t) : t.encIn = s.encIn := by
  rw [step_eq_next_of_inputs, Host.Outcome.next.injEq] at h
  rw [← h]

theorem step_decIn {s t : State} (h : step s = .next t) : t.decIn = s.decIn := by
  rw [step_eq_next_of_inputs, Host.Outcome.next.injEq] at h
  rw [← h]

/-- Settles O54: a step keeps the inputs, and the inputs decide the next state. -/
theorem presentingARequestTwiceGivesTheSameResult : Obligations.PresentingARequestTwiceGivesTheSameResult :=
  fun _ _ h => (step_eq_of_inputs_eq (step_encIn h) (step_decIn h)).trans h

/-! ## The cases of the decoder port's transaction (R35) -/

theorem serveDecoder_of_ok {s : State} {i : Instr} (hv : s.decIn.valid = true)
    (hi : decodeInstr hardware s.decIn.word = .ok i) : serveDecoder s = exec i s := by
  rw [serveDecoder, hv, hi]

theorem serveDecoder_of_error {s : State} {o : Outcome} (hv : s.decIn.valid = true)
    (ho : decodeInstr hardware s.decIn.word = .error o) : serveDecoder s = .next (failDecode o s) := by
  rw [serveDecoder, hv, ho]

theorem serveDecoder_of_idle {s : State} (hv : s.decIn.valid = false) : serveDecoder s = .next (idleDecode s) := by
  rw [serveDecoder, hv]

theorem decodeInstr_of_decodeTableWord {nbits w : Nat} {i : Instr} (h : decodeTableWord nbits w = some i) :
    decodeInstr hardware (BitVec.ofNat 32 (w % 2 ^ nbits)) = .ok i := by
  rw [decodeTableWord] at h
  cases hd : decodeInstr hardware (BitVec.ofNat 32 (w % 2 ^ nbits)) with
  | ok j =>
    rw [hd] at h
    rw [Option.some.inj h]
  | error o =>
    rw [hd] at h
    cases h

/-- Settles O50: the encoder port's transaction leaves the decoder inputs, which decide the decoder port's case. -/
theorem stepRunsTheDecodedInstruction : Obligations.StepRunsTheDecodedInstruction :=
  ⟨fun _ _ hv hi => serveDecoder_of_ok hv hi, fun _ _ hv ho => serveDecoder_of_error hv ho,
    fun _ hv => serveDecoder_of_idle hv, fun _ _ _ h => serveDecoder_of_ok rfl (decodeInstr_of_decodeTableWord h)⟩

/-! ## The outputs of a step are legal (R34, R35, R37) -/

/-- A failure Outcome with no Word is legal at the encoder port. -/
theorem EncOutputs.only_legal {c : Config} (hc : 3 ≤ c.outcomeW) {o : Outcome} (hdec : o ≠ .completeDecode)
    (henc : o ≠ .completeEncode) : (EncOutputs.only (c := c) o).Legal :=
  ⟨(Outcome.code_injective hc).ne hdec, fun h => absurd h ((Outcome.code_injective hc).ne henc), fun _ => rfl⟩

/-- A Word that some descriptor accepts is legal at the encoder port, with `COMPLETE_ENCODE`. -/
theorem encOutputs_ok_legal {c : Config} (hc : 3 ≤ c.outcomeW) {w : Word} (hw : (dispatch c w).isSome = true) :
    (encOutputs (c := c) (.ok w)).Legal :=
  ⟨(Outcome.code_injective hc).ne nofun, fun _ => hw, fun h => absurd rfl h⟩

theorem encOutputs_encode_legal {c : Config} (hc : c.wf = true) (hout : 3 ≤ c.outcomeW) (m : Mnemonic)
    (ops : OperandList) : (encOutputs (c := c) (encode c m ops)).Legal := by
  rw [encode]
  cases hl : lookup c m with
  | none => exact EncOutputs.only_legal hout nofun nofun
  | some d =>
    obtain ⟨n, rfl, -⟩ := lookup_eq_some c m d hl
    show (encOutputs (c := c) ((descriptor c n).encode ops)).Legal
    obtain ⟨k, t, -, h⟩ | h | ⟨k, -, h⟩ | ⟨hvalid, h⟩ := (descriptor c n).encode_cases ops
    · rw [h]
      cases t with
      | register => exact EncOutputs.only_legal hout nofun nofun
      | immediate => exact EncOutputs.only_legal hout nofun nofun
    · rw [h]
      exact EncOutputs.only_legal hout nofun nofun
    · rw [h]
      exact EncOutputs.only_legal hout nofun nofun
    · rw [h]
      exact encOutputs_ok_legal hout ((isSome_dispatch_iff hc _).mpr ⟨n, matchesWord_pack hvalid⟩)

theorem EncInputs.response_legal {c : Config} (hc : c.wf = true) (hout : 3 ≤ c.outcomeW) (i : EncInputs c) :
    i.response.Legal := by
  cases hv : i.valid with
  | false =>
    rw [EncInputs.response_of_idle hv]
    exact EncOutputs.only_legal hout nofun nofun
  | true =>
    rw [EncInputs.response_of_valid hv]
    exact encOutputs_encode_legal hc hout _ _

/-- A decoded operand is legal at the decoder port: it is `EMPTY`, a 5-bit number or a 16-bit number. -/
theorem operandPort_legalOutput {c : Config} (hval : 0x10000 < 2 ^ c.opvalW) {w : Word} {m : Mnemonic}
    {ops : OperandList} (h : decode c w = .ok m ops) (k : Position) : (operandPort (c := c) (ops.get k)).legalOutput := by
  obtain he | ⟨r, hr⟩ | ⟨v, hv⟩ := decode_get_cases h k
  · rw [he]
    exact .inl ⟨rfl, rfl⟩
  · have hlt : (Operand.register r.toNat).value < 2 ^ c.opvalW := r.isLt.trans (lt_trans (by decide) hval)
    rw [hr]
    exact .inr (.inl ⟨rfl, (operandPort_val_toNat _ hlt).trans_le (regNum_le r)⟩)
  · have hlt : (Operand.immediate v.toNat).value < 2 ^ c.opvalW := v.isLt.trans hval
    rw [hv]
    exact .inr (.inr ⟨rfl, (operandPort_val_toNat _ hlt).trans_le (imm16_le v)⟩)

/-- A decode fails with `WRONG_COMMAND` only (41_encoder_decoder.md R151). -/
theorem eq_wrongCommand_of_decode {c : Config} {w : Word} {o : Outcome} (h : decode c w = .fail o) :
    o = .wrongCommand := by
  rw [decode] at h
  cases hd : dispatch c w with
  | none =>
    rw [hd] at h
    exact (DecResult.fail.inj h).symm
  | some d =>
    rw [hd] at h
    cases h

theorem decOutputs_decode_legal {c : Config} (hval : 0x10000 < 2 ^ c.opvalW) (w : Word) :
    (decOutputs (c := c) (decode c w)).Legal := by
  cases h : decode c w with
  | fail o =>
    obtain rfl := eq_wrongCommand_of_decode h
    exact .inr (.inl rfl)
  | ok m ops =>
    obtain ⟨n, rfl, -, rfl⟩ := exists_name_of_decode h
    have hop4 : ((descriptor c n).extractOperands w).op4 = .empty :=
      extractOperands_get_of_notMem c w n.format.notMem_operandMap_p4
    exact .inr (.inr ⟨rfl, ⟨n, n.mem_all, rfl⟩, operandPort_legalOutput hval h .p1, operandPort_legalOutput hval h .p2,
      operandPort_legalOutput hval h .p3, (congrArg operandPort hop4).trans operandPort_empty⟩)

theorem DecInputs.response_legal {c : Config} (hval : 0x10000 < 2 ^ c.opvalW) (i : DecInputs) :
    (i.response (c := c)).Legal := by
  cases hv : i.valid with
  | false =>
    rw [DecInputs.response_of_idle hv]
    exact .inl rfl
  | true =>
    rw [DecInputs.response_of_valid hv]
    exact decOutputs_decode_legal hval _

/-- Settles O55: the outputs of a step are the responses to its inputs, and those are legal, whatever the inputs. -/
theorem everyStepLeavesLegalOutputs : Obligations.EveryStepLeavesLegalOutputs := by
  intro s t h
  obtain ⟨hval, -, hout⟩ := hardware.portsWf_iff.mp hardware_portsWf
  refine ⟨?_, ?_⟩
  · rw [step_encOut h]
    exact EncInputs.response_legal hardware_wf hout _
  · rw [step_decOut h]
    exact DecInputs.response_legal hval _

/-! ## Reset (R38) -/

/-- The reset state has the idle outputs, so a step, with no request presented, gives it again. -/
theorem step_reset : step State.reset = .next State.reset := step_eq_next_of_inputs State.reset

/-- Settles O56: the reset state is one that a step leaves. -/
theorem resetOutputsAreLegal : Obligations.ResetOutputsAreLegal := everyStepLeavesLegalOutputs _ _ step_reset

/-- Settles O57: the outputs of the reset state are written out. -/
theorem resetDrivesTheIdleOutputs : Obligations.ResetDrivesTheIdleOutputs := ⟨rfl, rfl⟩

/-! ## What running an instruction leaves (R35 to R37; 42 to 47) -/

/-- A mnemonic's port value, one byte per character (R36). -/
def portValue : InstrName → hardware.MnemPort
  | .add => 0x41444400
  | .and => 0x414E4400
  | .or => 0x4F520000
  | .sub => 0x53554200
  | .slt => 0x534C5400
  | .div => 0x44495600
  | .mult => 0x4D554C54
  | .mfhi => 0x4D464849
  | .mflo => 0x4D464C4F
  | .addi => 0x41444449
  | .slti => 0x534C5449
  | .lui => 0x4C554900
  | .beq => 0x42455100
  | .bne => 0x424E4500
  | .lw => 0x4C570000
  | .sw => 0x53570000

theorem mnemonicPort_mnemonic (n : InstrName) : mnemonicPort (c := hardware) n.mnemonic = portValue n := by
  cases n <;> decide

/-- An instruction completes in every state, delivers its mnemonic and its operand list, and changes nothing else. -/
theorem exec_eq_of_operands {i : Instr} {ops : OperandList} (h : i.operands = ops) (s : State) :
    exec i s = .next { s with decOut :=
      { outcome := 0b111, mnemonic := portValue i.name, op1 := operandPort ops.op1, op2 := operandPort ops.op2,
        op3 := operandPort ops.op3, op4 := operandPort ops.op4 } } := by
  rw [exec_eq_deliver, h, ← mnemonicPort_mnemonic]
  rfl

/-- Settles O37: the five have the operand list of format R3. -/
theorem threeRegisterInstructionsDeliverTheirOperands : Obligations.ThreeRegisterInstructionsDeliverTheirOperands := by
  intro rd rs rt s p hp
  obtain ⟨hops, hm⟩ : p.1.operands = formR3 rd rs rt ∧ p.2 = portValue p.1.name := by
    simp only [List.mem_cons, List.not_mem_nil, or_false] at hp
    obtain rfl | rfl | rfl | rfl | rfl := hp <;> exact ⟨rfl, rfl⟩
  rw [exec_eq_of_operands hops, hm, ← operandPort_register, ← operandPort_register, ← operandPort_register]
  rfl

/-- Settles O38: the two have the operand list of format R2. -/
theorem twoRegisterInstructionsDeliverTheirOperands : Obligations.TwoRegisterInstructionsDeliverTheirOperands := by
  intro rs rt s p hp
  obtain ⟨hops, hm⟩ : p.1.operands = formR2 rs rt ∧ p.2 = portValue p.1.name := by
    obtain rfl | rfl := List.mem_pair.mp hp <;> exact ⟨rfl, rfl⟩
  rw [exec_eq_of_operands hops, hm, ← operandPort_register, ← operandPort_register]
  rfl

/-- Settles O39: the two have the operand list of format R1. -/
theorem singleRegisterInstructionsDeliverTheirOperand : Obligations.SingleRegisterInstructionsDeliverTheirOperand := by
  intro rd s p hp
  obtain ⟨hops, hm⟩ : p.1.operands = formR1 rd ∧ p.2 = portValue p.1.name := by
    obtain rfl | rfl := List.mem_pair.mp hp <;> exact ⟨rfl, rfl⟩
  rw [exec_eq_of_operands hops, hm, ← operandPort_register]
  rfl

/-- Settles O40: `ADDI` and `SLTI` have the operand list of format I, `LUI` has its own. -/
theorem immediateInstructionsDeliverTheirOperands : Obligations.ImmediateInstructionsDeliverTheirOperands := by
  refine fun rt rs imm s => ⟨fun p hp => ?_, ?_⟩
  · obtain ⟨hops, hm⟩ : p.1.operands = formI rt rs imm ∧ p.2 = portValue p.1.name := by
      obtain rfl | rfl := List.mem_pair.mp hp <;> exact ⟨rfl, rfl⟩
    rw [exec_eq_of_operands hops, hm, ← operandPort_register, ← operandPort_register, ← operandPort_immediate]
    rfl
  · rw [exec_eq_of_operands (i := .lui rt imm) rfl, ← operandPort_register, ← operandPort_immediate]
    rfl

/-- Settles O41: the two have the operand list of format BR. -/
theorem branchInstructionsDeliverTheirOperands : Obligations.BranchInstructionsDeliverTheirOperands := by
  intro rs rt off s p hp
  obtain ⟨hops, hm⟩ : p.1.operands = formBr rs rt off ∧ p.2 = portValue p.1.name := by
    obtain rfl | rfl := List.mem_pair.mp hp <;> exact ⟨rfl, rfl⟩
  rw [exec_eq_of_operands hops, hm, ← operandPort_register, ← operandPort_register, ← operandPort_immediate]
  rfl

/-- Settles O42: the two have the operand list of format LS. -/
theorem loadStoreInstructionsDeliverTheirOperands : Obligations.LoadStoreInstructionsDeliverTheirOperands := by
  intro rt off rs s p hp
  obtain ⟨hops, hm⟩ : p.1.operands = formLs rt off rs ∧ p.2 = portValue p.1.name := by
    obtain rfl | rfl := List.mem_pair.mp hp <;> exact ⟨rfl, rfl⟩
  rw [exec_eq_of_operands hops, hm, ← operandPort_register, ← operandPort_immediate, ← operandPort_register]
  rfl

end Sys2Proof.Machine

namespace Sys2Proof

/-! ## Words as instructions, and as bytes (95_test_vectors.md sections 3 and 4; 20_memory.md R51) -/

/-- Settles O58: each Word is decoded by evaluation. -/
theorem wordsOfTheSpecDecode : Obligations.WordsOfTheSpecDecode := by
  refine ⟨?_, ?_, ?_, ?_, ?_, ?_, ?_, ?_, ?_⟩ <;> decide

/-- The four bytes of a Word, top byte first, appended. -/
theorem bytes_append (w : Word) :
    w.extractLsb' 24 8 ++ w.extractLsb' 16 8 ++ w.extractLsb' 8 8 ++ w.extractLsb' 0 8 = w := by
  rw [BitVec.extractLsb'_append_extractLsb'_eq_extractLsb' (show 24 = 16 + 8 from rfl),
    BitVec.extractLsb'_append_extractLsb'_eq_extractLsb' (show 16 = 8 + 8 from rfl),
    BitVec.extractLsb'_append_extractLsb'_eq_extractLsb' (show 8 = 0 + 8 from rfl)]
  exact BitVec.extractLsb'_eq_self

/-- Settles O59: either order lists the same four bytes. -/
theorem serialisedWordReadsBack : Obligations.SerialisedWordReadsBack := by
  intro order w
  cases order with
  | big => exact congrArg some (bytes_append w)
  | little => exact congrArg some (bytes_append w)

end Sys2Proof
